-- ==== Sys2Proof/Word.lean ====
section
/-! DEFINITION. The widths of B32: the words of the port and the units inside one group (00_scope.md R4, R6). -/

namespace Sys2Proof

/-- A byte of the byte side, and an ASCII character code of the symbol side: one 8-bit lane (R6, R24). -/
abbrev Byte := BitVec 8

/-- A bit group: the 5-bit value of one symbol (R4). -/
abbrev Value := BitVec 5

/-- The count field of a request or of a response (R6, R35, R38). -/
abbrev Count := BitVec 4

/-- The data field of a request or of a response: eight lanes (R20). -/
abbrev Data := BitVec 64

/-- The window: the 40 bits of one group (R22). -/
abbrev Window := BitVec 40

/-- A request word `REQ` (R35). -/
abbrev ReqWord := BitVec 70

/-- A response word `RSP` (R38). -/
abbrev RspWord := BitVec 70

end Sys2Proof
end

