-- ==== Sys2Proof/Config.lean ====
section
/-! DEFINITION. The one parameter of B32, `ALPHABET`, and what is assumed of it (00_scope.md R5, 40_alphabet.md R50).
The value the machine runs with is `Sys2Proof.Machine.alphabet`, in Machine/Alphabet.lean, where a repair can reach it. -/

namespace Sys2Proof

/-- `ALPHABET`: a function from the 5-bit values to 8-bit character codes (R5). A parameter, never state (R18). -/
abbrev Alphabet := Value → Byte

/-- A lowercase letter or a digit: this spec's reading of "lowercase ASCII symbol" (R50 (c)). -/
abbrev lowerOrDigit (c : Byte) : Prop :=
  (0x61#8 ≤ c ∧ c ≤ 0x7A#8) ∨ (0x30#8 ≤ c ∧ c ≤ 0x39#8)

/-- Everything that may be assumed of an alphabet (R50); R50 (a), 32 entries, is the type `Alphabet`. -/
structure Alphabet.Admissible (A : Alphabet) : Prop where
  /-- R50 (b): the entries are pairwise different. -/
  distinct : ∀ v w : Value, A v = A w → v = w
  /-- R50 (c): every entry is a lowercase letter or a digit. -/
  charset : ∀ v : Value, lowerOrDigit (A v)
  /-- R50 (d): `'0'`, `'2'`, `'l'` and `'v'` are not entries. -/
  omits : ∀ v : Value, A v ≠ 0x30#8 ∧ A v ≠ 0x32#8 ∧ A v ≠ 0x6C#8 ∧ A v ≠ 0x76#8
  /-- R50 (e): value 0 is `'y'`. -/
  zero : A 0#5 = 0x79#8
  /-- R50 (f): value 31 is `'9'`. -/
  last : A 31#5 = 0x39#8

end Sys2Proof
end

