-- ==== Sys2Proof/Syntax.lean ====
section
/-! DEFINITION. The operations of B32, one constructor per row of spec/opcode_table.json (30_encoding.md R36, R46). -/

namespace Sys2Proof

/-- One request, as an assembler line of R47 states it: the count, then the listed elements, lane 0 first.
A request whose count is out of range is a request like any other: it has a response, `BadCount` (R44). -/
inductive Instr where
  /-- `ENC n, b0 b1 ..`: the count and exactly `min(n,5)` bytes. -/
  | enc (n : Count) (bs : List Byte)
  /-- `DEC m, c0 c1 ..`: the count and exactly `min(m,8)` character codes. -/
  | dec (m : Count) (cs : List Byte)
  /-- `FLEN r`: the index into the encode remainder table. -/
  | flen (r : Count)
  /-- `GLEN r`: the index into the decode remainder table. -/
  | glen (r : Count)
deriving DecidableEq, Repr

end Sys2Proof
end

