-- ==== Sys2Proof/WellFormed.lean ====
section
/-! DEFINITION. Which terms of `Instr` are assembler lines: the number of listed elements (30_encoding.md R47). -/

namespace Sys2Proof

/-- `ENC n` lists exactly `min(n,5)` bytes, `DEC m` exactly `min(m,8)` character codes; `FLEN` and `GLEN` have no
data operand (R47, R41). -/
def Instr.wf : Instr → Bool
  | .enc n bs => bs.length == min n.toNat 5
  | .dec m cs => cs.length == min m.toNat 8
  | .flen _ => true
  | .glen _ => true

/-- The check as a proposition. -/
abbrev Instr.WellFormed (i : Instr) : Prop := i.wf = true

end Sys2Proof
end

