-- ==== Sys2Proof/Decode.lean ====
section
/-! DEFINITION. Request words: their fields and lanes, the opcode table, the decoder (total on words and on bytes)
and the encoder (30_encoding.md R35, R36, R41, R45, R46, R47; 20_memory.md R20). -/

namespace Sys2Proof

/-- `REQ.op`, bits 69:68 (R35). -/
def reqOp (q : ReqWord) : BitVec 2 := q.extractLsb' 68 2

/-- `REQ.cnt`, bits 67:64 (R35). -/
def reqCnt (q : ReqWord) : Count := q.extractLsb' 64 4

/-- `REQ.data`, bits 63:0 (R35). -/
def reqData (q : ReqWord) : Data := q.extractLsb' 0 64

/-- `lane(d, i)`, bits `[63-8*i : 56-8*i]`, for `i` in 0..7 (R20). -/
def lane (d : Data) (i : Nat) : Byte := d.extractLsb' (56 - 8 * i) 8

/-- The data field whose lane `i` is `e i`, lane 0 in the most significant position (R20). -/
def dataOf (e : Nat → Byte) : Data :=
  e 0 ++ e 1 ++ e 2 ++ e 3 ++ e 4 ++ e 5 ++ e 6 ++ e 7

/-- A request word from its three fields (R35). -/
def packReq (op : BitVec 2) (cnt : Count) (d : Data) : ReqWord := op ++ cnt ++ d

/-- Element `i` of a list of listed elements; unlisted lanes are assembled as 00 (R47). -/
def listed (es : List Byte) (i : Nat) : Byte := es.getD i 0x00#8

/-- Lanes 0 to `k-1` of a data field, lane 0 first. -/
def lanes (k : Nat) (d : Data) : List Byte := (List.range k).map (lane d)

/-- The decoder: every request word is one of the four operations; `REQ.op` picks it (R36, R45). Of the lanes only
those a line of R47 lists are read, so that an ignored lane cannot reach a meaning (R42). -/
def decodeWord (q : ReqWord) : Instr :=
  if reqOp q = 0b00#2 then .enc (reqCnt q) (lanes (min (reqCnt q).toNat 5) (reqData q))
  else if reqOp q = 0b01#2 then .dec (reqCnt q) (lanes (min (reqCnt q).toNat 8) (reqData q))
  else if reqOp q = 0b10#2 then .flen (reqCnt q)
  else .glen (reqCnt q)

/-- Why a raw form is no request word. -/
inductive DecodeError where
  /-- The raw form has not 9 bytes (18 hexadecimal digits, R47). Safe: nothing runs. -/
  | notNineBytes
  /-- The top digit of the raw form is above 3, so it has bits above bit 69 (R47). Safe: nothing runs. -/
  | topDigit
deriving DecidableEq, Repr

/-- The raw form of R47, 18 hexadecimal digits with a top digit 0 to 3. -/
def decodeRaw (w : BitVec 72) : Except DecodeError Instr :=
  if w.extractLsb' 70 2 = 0b00#2 then .ok (decodeWord (w.extractLsb' 0 70)) else .error .topDigit

/-- The decoder on any bytes: the nine bytes of the raw form, the first holding its two top digits.
DESIGN CHOICE (log entry 4): the spec gives the word no byte layout, the digits of R47 give this one. -/
def decodeBytes : List Byte → Except DecodeError Instr
  | [b0, b1, b2, b3, b4, b5, b6, b7, b8] =>
    decodeRaw (b0 ++ b1 ++ b2 ++ b3 ++ b4 ++ b5 ++ b6 ++ b7 ++ b8)
  | _ => .error .notNineBytes

/-- The encoder: the word of an assembler line (R35, R36, R47). -/
def encode : Instr → ReqWord
  | .enc n bs => packReq 0b00#2 n (dataOf (listed bs))
  | .dec m cs => packReq 0b01#2 m (dataOf (listed cs))
  | .flen r => packReq 0b10#2 r 0#64
  | .glen r => packReq 0b11#2 r 0#64

/-- The nine bytes of a raw form, most significant first. -/
def rawBytes (w : BitVec 72) : List Byte :=
  (List.range 9).map fun i => w.extractLsb' (64 - 8 * i) 8

/-- The nine bytes of the raw form of an assembler line (log entry 4). -/
def encodeBytes (i : Instr) : List Byte := rawBytes ((encode i).setWidth 72)

/-- One row of the opcode table (R46). -/
structure OpRow where
  mnemonic : String
  mask : ReqWord
  pattern : ReqWord
deriving DecidableEq, Repr

/-- The opcode table (R46): a word selects the row with `q & mask = match`. -/
def opTable : List OpRow :=
  [⟨"ENC", 0x300000000000000000#70, 0x000000000000000000#70⟩,
   ⟨"DEC", 0x300000000000000000#70, 0x100000000000000000#70⟩,
   ⟨"FLEN", 0x300000000000000000#70, 0x200000000000000000#70⟩,
   ⟨"GLEN", 0x300000000000000000#70, 0x300000000000000000#70⟩]

/-- `q & mask = match` (R46). -/
def OpRow.selects (r : OpRow) (q : ReqWord) : Bool := q &&& r.mask == r.pattern

/-- The mnemonic of an operation (R36). -/
def Instr.mnemonic : Instr → String
  | .enc _ _ => "ENC"
  | .dec _ _ => "DEC"
  | .flen _ => "FLEN"
  | .glen _ => "GLEN"

/-- The request word whose bits are the low `nbits` bits of `w`, the bits above them 0; none where bits above bit 69
are set, since a request word has 70 bits (R35, R45). -/
def tableWord (nbits w : Nat) : Option ReqWord :=
  if w % 2 ^ nbits < 2 ^ 70 then some (BitVec.ofNat 70 (w % 2 ^ nbits)) else none

/-- What the decoder reads from the word whose bits are `w`, as spec/opcode_table.json numbers them: through the raw
form's bytes. -/
def decodeTableWord (nbits w : Nat) : Option Instr :=
  match tableWord nbits w with
  | some q => (decodeBytes (rawBytes (q.setWidth 72))).toOption
  | none => none

end Sys2Proof
end

