-- ==== Sys2Proof/Machine/State.lean ====
section
/-! DEFINITION. The state of the model: the state of B32, which is `Unit` (10_state.md R18), and beside it the two sides
of its port.
B32 itself holds no state (10_state.md R10 to R18): there is no register, program counter, flag, memory, mode,
exception register or counter to hold. Nothing of the host is held either: not its sequences, not its buffers, not its
position in them (R11, R18). -/

namespace Sys2Proof.Machine

/-- The machine state of B32: "machine state type `Unit`" (R18). -/
abbrev BlockState := Unit

/-- The port of B32, which is no state of it (R17, R18). A step of the model takes a state and answers a state, so the
argument `REQ` and the result `RSP` of R18's step stand here (log entry 2). -/
structure Port where
  /-- The request word the host drives, or `none` where it drives none (R35, R141). -/
  req : Option ReqWord
  /-- The response word, or `none` where `RSP` has no value (R38, R19, R141). -/
  rsp : Option RspWord
deriving DecidableEq, Repr

/-- The state of the model: B32's own state, which is `block` and nothing else (R18), and its port. -/
structure State extends Port where
  /-- All that B32 holds between two requests: nothing (R10 to R18). -/
  block : BlockState
deriving DecidableEq, Repr

/-- After reset: nothing is driven and `RSP` has no value. The spec gives B32 no reset and nothing to reset
(R19, R140); what the port shows then is a DESIGN CHOICE (log entry 3). -/
def State.reset : State := { req := none, rsp := none, block := () }

/-- Reasons for the machine to stop with a fault: there are none, "no other error, fault, trap or undefined outcome"
(R122). The two errors of B32 are responses, hence next states (R124). -/
inductive Fault where
deriving DecidableEq, Repr

/-- Reasons to refuse a step. -/
inductive Refusal where
  /-- Raised by `exec` for an operation without a meaning; no arm does. Safe. -/
  | notModelled (mnemonic : String)
  /-- Raised by `step` alone, when the host drives no request: "a model has no step" then (R141, U8). Safe. -/
  | noRequest
deriving DecidableEq, Repr

/-- The result type of a step. -/
abbrev Result := Host.Outcome State Fault Refusal

/-- The two errors of B32 (R120, R121). -/
inductive Error where
  /-- A consumed lane of `DEC` holds a code outside the alphabet (R120). -/
  | invalidSymbol
  /-- The count is outside the operation's legal range (R121). -/
  | badCount
deriving DecidableEq, Repr

/-- The three fields of a response (R38). -/
structure Rsp where
  status : BitVec 2
  cnt : Count
  data : Data
deriving DecidableEq, Repr

end Sys2Proof.Machine
end

