-- ==== Sys2Proof/Machine/Alphabet.lean ====
section
/-! DEFINITION. The default alphabet and the reverse lookup (40_alphabet.md R51 to R53). -/

namespace Sys2Proof.Machine

/-- The contents of `ZBASE32`, index 0 first: `ybndrfg8ejkmcpqxot1uwisza345h769` (R51). -/
def zbase32Table : List Byte :=
  [0x79#8, 0x62#8, 0x6E#8, 0x64#8, 0x72#8, 0x66#8, 0x67#8, 0x38#8] ++
  [0x65#8, 0x6A#8, 0x6B#8, 0x6D#8, 0x63#8, 0x70#8, 0x71#8, 0x78#8] ++
  [0x6F#8, 0x74#8, 0x31#8, 0x75#8, 0x77#8, 0x69#8, 0x73#8, 0x7A#8] ++
  [0x61#8, 0x33#8, 0x34#8, 0x35#8, 0x68#8, 0x37#8, 0x36#8, 0x39#8]

/-- The default alphabet `ZBASE32` (R51). The table has an entry for each of the 32 values. -/
def zbase32 : Alphabet := fun v => zbase32Table.getD v.toNat 0x00#8

/-- The alphabet the machine runs with: the spec's default (R5, R51). PRESUMED (log entry 1): entries 1 to 30 are
from general knowledge, not from the source; what must hold of the original is stated for every admissible
alphabet. -/
def alphabet : Alphabet := zbase32

/-- The 32 values, in order. -/
def allValues : List Value := (List.range 32).map (BitVec.ofNat 5)

/-- `Ainv(c)`: the value whose symbol is `c` on all 8 bits, or `none` (R53, R24). -/
def lookup (A : Alphabet) (c : Byte) : Option Value := allValues.find? fun v => A v == c

end Sys2Proof.Machine
end

