-- ==== Sys2Proof/Machine/Operands.lean ====
section
/-! DEFINITION. Operand assembly: the elements a request consumes and the masking of the absent ones
(30_encoding.md R41, R42; 42_decoder.md R70, R71; 43_encoder.md R85). An operand is given as the function that
says which element stands in each lane. -/

namespace Sys2Proof.Machine

/-- Window byte `i` of `ENC` with count `n`: the element, or 0x00 where it is absent (R85). -/
def encByte (n : Nat) (b : Nat → Byte) (i : Nat) : Byte := if i < n then b i else 0x00#8

/-- Slot `k` of `DEC` with count `m`: the looked-up element, or the value 0 without any lookup where it is absent
(R70, R71). -/
def decSlot (A : Alphabet) (m : Nat) (c : Nat → Byte) (k : Nat) : Option Value :=
  if k < m then lookup A (c k) else some 0#5

/-- Some consumed lane is outside the alphabet (R70). -/
def decMisses (A : Alphabet) (m : Nat) (c : Nat → Byte) : Bool :=
  (List.range 8).any fun k => (decSlot A m c k).isNone

/-- The value of slot `k`, read only where no lane misses (R70, R71). -/
def decValue (A : Alphabet) (m : Nat) (c : Nat → Byte) (k : Nat) : Value := (decSlot A m c k).getD 0#5

end Sys2Proof.Machine
end

