-- ==== Sys2Proof/Machine/Flags.lean ====
section
/-! DEFINITION. B32 has no flags (10_state.md R12). Its only condition output is the status of a response: the codes
(30_encoding.md R39), the legal counts (R37) and the closed form of the status (60_exceptions.md R123, R125). -/

namespace Sys2Proof.Machine

/-- Status code `OK` (R39). -/
def okCode : BitVec 2 := 0b00#2

/-- The status code of an error (R39). -/
def errorCode : Error → BitVec 2
  | .invalidSymbol => 0b01#2
  | .badCount => 0b10#2

/-- The legal counts: `ENC` 0..5, `DEC` 0..8, `FLEN` 0..4, `GLEN` 0..7 (R37). -/
def countLegal : Instr → Bool
  | .enc n _ => decide (n.toNat ≤ 5)
  | .dec m _ => decide (m.toNat ≤ 8)
  | .flen r => decide (r.toNat ≤ 4)
  | .glen r => decide (r.toNat ≤ 7)

/-- The operation is `DEC` and a consumed lane misses (R120). -/
def symbolMissing (A : Alphabet) : Instr → Bool
  | .dec m cs => decMisses A m.toNat (listed cs)
  | .enc _ _ => false
  | .flen _ => false
  | .glen _ => false

/-- The status of a request, `BadCount` first (R123, R125). -/
def statusOf (A : Alphabet) (i : Instr) : BitVec 2 :=
  if countLegal i = false then errorCode .badCount
  else if symbolMissing A i then errorCode .invalidSymbol
  else okCode

end Sys2Proof.Machine
end

