-- ==== Sys2Proof/Machine/Regroup.lean ====
section
/-! DEFINITION. The window and the two regroupings (20_memory.md R22; 42_decoder.md R72; 43_encoder.md R86). -/

namespace Sys2Proof.Machine

/-- The window of five bytes, the first most significant (R22). -/
def windowOfBytes (b : Nat → Byte) : Window := b 0 ++ b 1 ++ b 2 ++ b 3 ++ b 4

/-- The window of eight values, the first most significant (R22). -/
def windowOfValues (v : Nat → Value) : Window :=
  v 0 ++ v 1 ++ v 2 ++ v 3 ++ v 4 ++ v 5 ++ v 6 ++ v 7

/-- Byte `i` of a window, `W[39-8i : 32-8i]`, `i` in 0..4 (R22). -/
def windowByte (w : Window) (i : Nat) : Byte := w.extractLsb' (32 - 8 * i) 8

/-- Value `k` of a window, `W[39-5k : 35-5k]`, `k` in 0..7 (R22). -/
def windowValue (w : Window) (k : Nat) : Value := w.extractLsb' (35 - 5 * k) 5

/-- `Regroup58`: value `k` of five bytes (R86). -/
def regroup58 (b : Nat → Byte) (k : Nat) : Value := windowValue (windowOfBytes b) k

/-- `Regroup85`: byte `i` of eight values (R72). -/
def regroup85 (v : Nat → Value) (i : Nat) : Byte := windowByte (windowOfValues v) i

end Sys2Proof.Machine
end

