-- ==== Sys2Proof/Machine/Tables.lean ====
section
/-! DEFINITION. The remainder-size tables and their extension to the full group (41_remainder_tables.md R60 to R62),
and the lengths of whole sequences (44_stream_operations.md R102, R105). -/

namespace Sys2Proof.Machine

/-- The encode remainder table: symbols for 0 to 4 trailing bytes (R60). -/
def fTable : List Nat := [0, 2, 4, 5, 7]

/-- The decode remainder table: bytes for 0 to 7 trailing symbols (R61). -/
def gTable : List Nat := [0, 1, 2, 2, 3, 4, 4, 5]

/-- `f(r)`, `none` outside the table's domain 0..4 (R60). -/
def f (r : Nat) : Option Nat := fTable[r]?

/-- `g(r)`, `none` outside the table's domain 0..7 (R61). -/
def g (r : Nat) : Option Nat := gTable[r]?

/-- `F(n)`: `f` with the full group of 5 bytes, 8 symbols (R62). -/
def F (n : Nat) : Option Nat := if n = 5 then some 8 else f n

/-- `G(m)`: `g` with the full group of 8 symbols, 5 bytes (R62). -/
def G (m : Nat) : Option Nat := if m = 8 then some 5 else g m

/-- `EncLen(n) = ⌊n/5⌋*8 + f(n mod 5)` (R102); the index is always in the domain of `f`. -/
def encLen (n : Nat) : Nat := n / 5 * 8 + (f (n % 5)).getD 0

/-- `DecLen(m) = ⌊m/8⌋*5 + g(m mod 8)` (R105); the index is always in the domain of `g`. -/
def decLen (m : Nat) : Nat := m / 8 * 5 + (g (m % 8)).getD 0

end Sys2Proof.Machine
end

