-- ==== Sys2Proof/Machine/Ops.lean ====
section
/-! DEFINITION. The shared operations: building and reading a response word, raising an error, R18's step, and
answering on the port (10_state.md R18; 30_encoding.md R38, R43; 60_exceptions.md R124). -/

namespace Sys2Proof.Machine

/-- The response word of three fields (R38). -/
def packRsp (r : Rsp) : RspWord := r.status ++ r.cnt ++ r.data

/-- `RSP.status`, bits 69:68 (R38). -/
def rspStatus (w : RspWord) : BitVec 2 := w.extractLsb' 68 2

/-- `RSP.cnt`, bits 67:64 (R38). -/
def rspCnt (w : RspWord) : Count := w.extractLsb' 64 4

/-- `RSP.data`, bits 63:0 (R38). -/
def rspData (w : RspWord) : Data := w.extractLsb' 0 64

/-- `bytes(RSP)`: lanes `0..RSP.cnt-1` of `RSP.data` (44_stream_operations.md, introduction). -/
def rspBytes (w : RspWord) : List Byte := lanes (rspCnt w).toNat (rspData w)

/-- `raise E`: the status is the code, the count and the data are 0, and nothing else happens; nothing is saved,
control goes nowhere and there is no return (R124, R126). -/
def raise (e : Error) : Rsp := ⟨errorCode e, 0#4, 0#64⟩

/-- `OK` with `k` output elements: element `j` in lane `j` for `j < k`, every other lane 0x00 (R38, R43). -/
def okElements (k : Nat) (e : Nat → Byte) : Rsp :=
  ⟨okCode, BitVec.ofNat 4 k, dataOf fun j => if j < k then e j else 0x00#8⟩

/-- `OK` with a table value and no data (R38, R43). -/
def okSize (k : Nat) : Rsp := ⟨okCode, BitVec.ofNat 4 k, 0#64⟩

/-- Writing the response side of the port. -/
def State.setRsp (s : State) (w : RspWord) : State := { s with rsp := some w }

/-- R18's step over the state `Unit`, for the response `w` of the request: `step(u, REQ) = (u, w)`. -/
def unitStep (w : RspWord) (u : BlockState) : BlockState × RspWord := (u, w)

/-- The end of every operation: R18's step of the block, its result on the port, and nothing else changes
(R18, R27, R124). -/
def answer (r : Rsp) (s : State) : Result :=
  let (u, w) := unitStep (packRsp r) s.block
  .next ({ s with block := u }.setRsp w)

/-- What a host reads from a response word: the elements or the size, or an error; a status 0b11 is refused
(93_implementation_defined.md U9). -/
def readRsp (w : RspWord) : Option (Except Error (Count × Data)) :=
  if rspStatus w = okCode then some (.ok (rspCnt w, rspData w))
  else if rspStatus w = errorCode .invalidSymbol then some (.error .invalidSymbol)
  else if rspStatus w = errorCode .badCount then some (.error .badCount)
  else none

end Sys2Proof.Machine
end

