-- ==== Sys2Proof/Machine/Decoder.lean ====
section
/-! DEFINITION. `base32_decoder`: the operation `DEC` (42_decoder.md R70 to R74). -/

namespace Sys2Proof.Machine

/-- The five bytes of `DEC` with count `m`: lookup, then `Regroup85` (R70, R71, R72). -/
def decByte (A : Alphabet) (m : Nat) (c : Nat → Byte) (i : Nat) : Byte := regroup85 (decValue A m c) i

/-- `DEC(m, data)` (R74): `BadCount` where `m > 8`, checked first (R125); `InvalidSymbol` where a consumed lane misses;
else the first `G(m)` bytes. -/
def decGroup (A : Alphabet) (m : Nat) (c : Nat → Byte) : Rsp :=
  match G m with
  | none => raise .badCount
  | some k => if decMisses A m c then raise .invalidSymbol else okElements k (decByte A m c)

/-- The meaning of `DEC m, c0 .. c(m-1)` (R74). -/
def execDec (m : Count) (cs : List Byte) (s : State) : Result :=
  answer (decGroup alphabet m.toNat (listed cs)) s

end Sys2Proof.Machine
end

