-- ==== Sys2Proof/Machine/Encoder.lean ====
section
/-! DEFINITION. `base32_encoder`: the operation `ENC` (43_encoder.md R85 to R88). -/

namespace Sys2Proof.Machine

/-- The eight values of `ENC` with count `n`: masking, then `Regroup58` (R85, R86). -/
def encValue (n : Nat) (b : Nat → Byte) (k : Nat) : Value := regroup58 (encByte n b) k

/-- `ENC(n, data)` (R88): `BadCount` where `n > 5`, else the symbols of the first `F(n)` values. -/
def encGroup (A : Alphabet) (n : Nat) (b : Nat → Byte) : Rsp :=
  match F n with
  | none => raise .badCount
  | some k => okElements k fun j => A (encValue n b j)

/-- The meaning of `ENC n, b0 .. b(n-1)` (R88). -/
def execEnc (n : Count) (bs : List Byte) (s : State) : Result :=
  answer (encGroup alphabet n.toNat (listed bs)) s

end Sys2Proof.Machine
end

