-- ==== Sys2Proof/Machine/Remainder.lean ====
section
/-! DEFINITION. The table operations `FLEN` and `GLEN` (41_remainder_tables.md R63, R64). -/

namespace Sys2Proof.Machine

/-- `FLEN(r)` (R63): `BadCount` outside the domain of `f`. -/
def flen (r : Nat) : Rsp :=
  match f r with
  | none => raise .badCount
  | some k => okSize k

/-- `GLEN(r)` (R64): `BadCount` outside the domain of `g`. -/
def glen (r : Nat) : Rsp :=
  match g r with
  | none => raise .badCount
  | some k => okSize k

/-- The meaning of `FLEN r` (R63). -/
def execFlen (r : Count) (s : State) : Result := answer (flen r.toNat) s

/-- The meaning of `GLEN r` (R64). -/
def execGlen (r : Count) (s : State) : Result := answer (glen r.toNat) s

end Sys2Proof.Machine
end

