-- ==== Sys2Proof/Machine/Block.lean ====
section
/-! DEFINITION. B32 as 10_state.md R18 gives it: the top-level function `B32 : ALPHABET → REQ → RSP`, the step over the
state `Unit`, and what the port shows while a request is driven (R19). The function is written from 30_encoding.md R40
on the fields of the word itself, with the lanes of the data field as the elements (R41). It does not use the decoder or
`exec`: that the machine's step computes it is a statement. -/

namespace Sys2Proof.Machine

/-- `B32(REQ)` (R40), total over all request words, for any alphabet (R18). -/
def b32 (A : Alphabet) (q : ReqWord) : RspWord :=
  packRsp <|
    if reqOp q = 0b00#2 then encGroup A (reqCnt q).toNat (lane (reqData q))
    else if reqOp q = 0b01#2 then decGroup A (reqCnt q).toNat (lane (reqData q))
    else if reqOp q = 0b10#2 then flen (reqCnt q).toNat
    else glen (reqCnt q).toNat

/-- R18's step over the state `Unit`: `step(u, REQ) = (u, B32(REQ))`. Every meaning ends in the same `unitStep`, in
`answer`; that the response it gives is `B32(REQ)` is a statement. -/
def blockStep (A : Alphabet) (u : BlockState) (q : ReqWord) : BlockState × RspWord := unitStep (b32 A q) u

/-- What the host does at the port between two steps: it drives a request word, or none. B32 is combinational: at every
instant `RSP` is `B32(REQ)` of the word that is driven, and has no value where none is (R19, R141; D25). -/
def State.drive (s : State) (o : Option ReqWord) : State := { s with req := o, rsp := o.map (b32 alphabet) }

/-- R18's step over a list of requests, one after another: the state at the end and the response to each. -/
def blockRun (A : Alphabet) (u : BlockState) : List ReqWord → BlockState × List RspWord
  | [] => (u, [])
  | q :: qs =>
    let (u', w) := blockStep A u q
    let (u'', ws) := blockRun A u' qs
    (u'', w :: ws)

end Sys2Proof.Machine
end

