-- ==== Sys2Proof/Machine/Dispatch.lean ====
section
/-! DEFINITION. One arm per operation (30_encoding.md R36). -/

namespace Sys2Proof.Machine

def exec (i : Instr) (s : State) : Host.Outcome State Fault Refusal :=
  match i with
  | .enc n bs => Sys2Proof.Machine.execEnc n bs s
  | .dec m cs => Sys2Proof.Machine.execDec m cs s
  | .flen r => Sys2Proof.Machine.execFlen r s
  | .glen r => Sys2Proof.Machine.execGlen r s

end Sys2Proof.Machine
end

