-- ==== Sys2Proof/Machine/Step.lean ====
section
/-! DEFINITION. One step: the request word the host drives is given, its response is returned
(00_scope.md R7, 10_state.md R18, 70_reset_and_hazards.md R141). -/

namespace Sys2Proof.Machine

/-- One transaction. Where the host drives no request there is no step (R141, U8). -/
def step (s : State) : Host.Outcome State Fault Refusal :=
  match s.req with
  | none => .refused .noRequest
  | some q => exec (decodeWord q) s

/-- `s` with the host driving the request word whose low `nbits` bits are those of `w`, so that the next step runs it
(log entries 2 and 14). The response side follows the request, as it does at every instant (R19). -/
def State.withFetchWord (s : State) (nbits w : Nat) : State := s.drive (tableWord nbits w)

end Sys2Proof.Machine
end

