-- ==== Sys2Proof/Machine/Sequence.lean ====
section
/-! DEFINITION. The whole-sequence pseudo-operations `ENCODE` and `DECODE`, which the host runs as loops over groups
(44_stream_operations.md R100, R103, R104; 20_memory.md R25), and the host's reading of a run of the machine. -/

namespace Sys2Proof.Machine

/-- The groups of a sequence: full groups of `k` elements from the start, then the remainder block where there is one
(R25). -/
def groups (k : Nat) (l : List Byte) : List (List Byte) :=
  (List.range (l.length / k)).map (fun j => (l.drop (k * j)).take k) ++
    (if 0 < l.length % k then [l.drop (k * (l.length / k))] else [])

/-- The `ENC` request of one group. -/
def encRequest (bs : List Byte) : Instr := .enc (BitVec.ofNat 4 bs.length) bs

/-- The `DEC` request of one group. -/
def decRequest (cs : List Byte) : Instr := .dec (BitVec.ofNat 4 cs.length) cs

/-- The requests `ENCODE b` expands to, in order (R100). -/
def encodeRequests (b : List Byte) : List ReqWord := (groups 5 b).map fun x => encode (encRequest x)

/-- The requests `DECODE s` expands to, in order (R103). -/
def decodeRequests (s : List Byte) : List ReqWord := (groups 8 s).map fun x => encode (decRequest x)

/-- `ENCODE(b)`: the concatenation of `bytes(RSP)` of each response (R100). -/
def encodeSeq (A : Alphabet) (b : List Byte) : List Byte :=
  (encodeRequests b).flatMap fun q => rspBytes (b32 A q)

/-- The result of `DECODE` (R103, R104). -/
inductive DecodeResult where
  /-- Every character is in the alphabet: the bytes. -/
  | success (bytes : List Byte)
  /-- `failure(InvalidSymbol)`, with no bytes. -/
  | failure
deriving DecidableEq, Repr

/-- What the host makes of the responses of `DECODE`: all the bytes where every response is `OK`, else the failure and
no bytes (R103, R104, R145). -/
def collect (rs : List RspWord) : DecodeResult :=
  if rs.all fun w => rspStatus w == okCode then .success (rs.flatMap rspBytes) else .failure

/-- `DECODE(s)` (R103, R104). -/
def decodeSeq (A : Alphabet) (s : List Byte) : DecodeResult :=
  collect ((decodeRequests s).map (b32 A))

/-! The host at the port: it drives one request after another. Its list is an argument of these functions and no part of
the state (10_state.md R11, R18). -/

/-- One transaction of the host: it drives a request, and the machine steps. -/
def present (s : State) (q : ReqWord) : Result := step (s.drive (some q))

/-- The machine after the host has presented a list of requests, in order. -/
def session : List ReqWord → State → Result
  | [], s => .next s
  | q :: qs, s =>
    match present s q with
    | .next t => session qs t
    | .fault e => .fault e
    | .refused r => .refused r

/-- The responses the host reads off the port while it presents a list of requests, in order; the list ends early where
the machine has no step. -/
def responses : List ReqWord → State → List RspWord
  | [], _ => []
  | q :: qs, s =>
    match present s q with
    | .next t => t.rsp.toList ++ responses qs t
    | .fault _ => []
    | .refused _ => []

end Sys2Proof.Machine
end

