-- ==== Sys2Proof/Machine/Assembly.lean ====
section
/-! DEFINITION. The assembler lines of 30_encoding.md R47 and the pseudo-operations of R48: what each line stands for, as
the request words it presents. Text is a list of characters; the notation is the spec's own (D21). -/

namespace Sys2Proof.Machine

/-- One line (R47, R48). -/
inductive Line where
  /-- `ENC n, xx xx ..` -/
  | enc (n : Nat) (bytes : List Byte)
  /-- `DEC m, "text"` -/
  | decText (m : Nat) (text : List Char)
  /-- `DEC m, xx xx ..` -/
  | decCodes (m : Nat) (codes : List Byte)
  /-- `FLEN r` -/
  | flen (r : Nat)
  /-- `GLEN r` -/
  | glen (r : Nat)
  /-- `.req 0xHHHHHHHHHHHHHHHHHH` -/
  | req (raw : Nat)
  /-- `ENCODE xx xx ..` (R48) -/
  | encode (bytes : List Byte)
  /-- `DECODE "text"` (R48) -/
  | decode (text : List Char)
deriving DecidableEq, Repr

/-- The codes of a text; `none` where a character is not ASCII (R47). -/
def asciiCodes (text : List Char) : Option (List Byte) :=
  if text.all fun c => decide (c.toNat < 128) then some (text.map fun c => BitVec.ofNat 8 c.toNat) else none

/-- The word of a line with a count, where the count is 0 to 15 and exactly as many elements are listed as R47 asks. -/
def countedWord (count : Nat) (i : Instr) : Option (List ReqWord) :=
  if count < 16 ∧ i.wf then some [encode i] else none

/-- The request words of a line, `none` where it is no line of R47 or R48. -/
def assemble : Line → Option (List ReqWord)
  | .enc n bs => countedWord n (.enc (BitVec.ofNat 4 n) bs)
  | .decText m t => (asciiCodes t).bind fun cs => countedWord m (.dec (BitVec.ofNat 4 m) cs)
  | .decCodes m cs => countedWord m (.dec (BitVec.ofNat 4 m) cs)
  | .flen r => countedWord r (.flen (BitVec.ofNat 4 r))
  | .glen r => countedWord r (.glen (BitVec.ofNat 4 r))
  | .req raw => if raw < 2 ^ 70 then some [BitVec.ofNat 70 raw] else none
  | .encode bs => some (encodeRequests bs)
  | .decode t => (asciiCodes t).map decodeRequests

end Sys2Proof.Machine
end

