-- ==== Sys2Proof/Safety.lean ====
section
/-! DEFINITION. What a safe run of B32 is, and the spec's own descriptions of a response, in the terms the statements
use: written from the rules' formulas, not from the machine's functions. -/

namespace Sys2Proof.Machine

/-- The port shows `B32(REQ)`: the response belongs to the request that is driven, and where none is driven there is
no response (10_state.md R19; 70_reset_and_hazards.md R141, R146). -/
abbrev State.PortInv (s : State) : Prop := s.rsp = s.req.map (b32 alphabet)

/-- The response word of `raise BadCount` (R121, R124). -/
def badCountWord : RspWord := 0x200000000000000000#70

/-- The response word of `raise InvalidSymbol` (R120, R124). -/
def invalidSymbolWord : RspWord := 0x100000000000000000#70

/-- The count of a request is outside the range of R37: `ENC` 6..15, `DEC` 9..15, `FLEN` 5..15, `GLEN` 8..15 (R44). -/
abbrev illegalCount (q : ReqWord) : Prop :=
  (reqOp q = 0b00#2 ∧ 6 ≤ (reqCnt q).toNat) ∨ (reqOp q = 0b01#2 ∧ 9 ≤ (reqCnt q).toNat) ∨
  (reqOp q = 0b10#2 ∧ 5 ≤ (reqCnt q).toNat) ∨ (reqOp q = 0b11#2 ∧ 8 ≤ (reqCnt q).toNat)

/-- The eight slices of R86: value `k`, `k` in 0..7, of five bytes. -/
def slices58 (b : Nat → Byte) : Nat → Value
  | 0 => (b 0).extractLsb' 3 5
  | 1 => (b 0).extractLsb' 0 3 ++ (b 1).extractLsb' 6 2
  | 2 => (b 1).extractLsb' 1 5
  | 3 => (b 1).extractLsb' 0 1 ++ (b 2).extractLsb' 4 4
  | 4 => (b 2).extractLsb' 0 4 ++ (b 3).extractLsb' 7 1
  | 5 => (b 3).extractLsb' 2 5
  | 6 => (b 3).extractLsb' 0 2 ++ (b 4).extractLsb' 5 3
  | _ => (b 4).extractLsb' 0 5

/-- The five slices of R72: byte `i`, `i` in 0..4, of eight values. -/
def slices85 (v : Nat → Value) : Nat → Byte
  | 0 => v 0 ++ (v 1).extractLsb' 2 3
  | 1 => (v 1).extractLsb' 0 2 ++ v 2 ++ (v 3).extractLsb' 4 1
  | 2 => (v 3).extractLsb' 0 4 ++ (v 4).extractLsb' 1 4
  | 3 => (v 4).extractLsb' 0 1 ++ v 5 ++ (v 6).extractLsb' 3 2
  | _ => (v 6).extractLsb' 0 3 ++ v 7

/-- `w` is the response R88 gives `ENC` with count `n` and elements `b`. -/
def EncResponse (A : Alphabet) (n : Nat) (b : Nat → Byte) (w : RspWord) : Prop :=
  (5 < n → w = badCountWord) ∧
  (n ≤ 5 →
    rspStatus w = 0b00#2 ∧
    ([0, 2, 4, 5, 7, 8] : List Nat)[n]? = some (rspCnt w).toNat ∧
    ∀ k < 8, lane (rspData w) k =
      if k < (rspCnt w).toNat then A (slices58 (fun i => if i < n then b i else 0x00#8) k) else 0x00#8)

/-- `w` is the response R74 gives `DEC` with count `m` and elements `c`. -/
def DecResponse (A : Alphabet) (m : Nat) (c : Nat → Byte) (w : RspWord) : Prop :=
  (8 < m → w = badCountWord) ∧
  (m ≤ 8 → (∃ k < m, lookup A (c k) = none) → w = invalidSymbolWord) ∧
  (m ≤ 8 → ∀ v : Nat → Value, (∀ k < m, lookup A (c k) = some (v k)) → (∀ k, m ≤ k → v k = 0#5) →
    rspStatus w = 0b00#2 ∧
    ([0, 1, 2, 2, 3, 4, 4, 5, 5] : List Nat)[m]? = some (rspCnt w).toNat ∧
    ∀ i < 8, lane (rspData w) i = if i < (rspCnt w).toNat then slices85 v i else 0x00#8)

/-- `w` is the response R63 gives `FLEN r`. -/
def FlenResponse (r : Nat) (w : RspWord) : Prop :=
  (4 < r → w = badCountWord) ∧
  (r ≤ 4 → rspStatus w = 0b00#2 ∧ ([0, 2, 4, 5, 7] : List Nat)[r]? = some (rspCnt w).toNat ∧ rspData w = 0#64)

/-- `w` is the response R64 gives `GLEN r`. -/
def GlenResponse (r : Nat) (w : RspWord) : Prop :=
  (7 < r → w = badCountWord) ∧
  (r ≤ 7 → rspStatus w = 0b00#2 ∧
    ([0, 1, 2, 2, 3, 4, 4, 5] : List Nat)[r]? = some (rspCnt w).toNat ∧ rspData w = 0#64)

/-- Two requests that differ in ignored bits only (R42): the same operation and count, and the same consumed lanes
where the operation consumes any. -/
def SameButIgnored (q q' : ReqWord) : Prop :=
  reqOp q = reqOp q' ∧ reqCnt q = reqCnt q' ∧
  (reqOp q = 0b00#2 → (reqCnt q).toNat ≤ 5 →
    ∀ i < (reqCnt q).toNat, lane (reqData q) i = lane (reqData q') i) ∧
  (reqOp q = 0b01#2 → (reqCnt q).toNat ≤ 8 →
    ∀ i < (reqCnt q).toNat, lane (reqData q) i = lane (reqData q') i)

end Sys2Proof.Machine
end

