-- ==== Sys2Proof/Certificates/Slice0/Obligations.lean ====
section
/-! DEFINITION. The statements about B32 for the provers. Each docstring names the rule of spec/ it formalises. -/

open Sys2Proof Sys2Proof.Machine

/-! ## The machine: reset, step, run -/

/-- After reset nothing is driven, `RSP` has no value, and there is no step. The model's choice (log entry 3); the spec
gives B32 no reset and no state. -/
def Obligations.ResetHasNoRequest : Prop :=
  State.reset.req = none ∧ State.reset.rsp = none ∧ step State.reset = .refused .noRequest

/-- A step is refused exactly where the host drives no request, under that one name, and every other step answers a
next state (so none faults: the type of faults is empty, log entry 10). The refusal is log entry 3. -/
def Obligations.StepStopsOnlyWithoutRequest : Prop :=
  (∀ (s : State) (r : Refusal), step s = .refused r ↔ s.req = none ∧ r = .noRequest) ∧
  (∀ (s : State), s.req ≠ none → ∃ t, step s = .next t)

/-- A step runs the operation that the request on the port decodes to (the port as a part of the state is
log entry 2). -/
def Obligations.StepRunsTheDecodedRequest : Prop :=
  ∀ (s : State) (q : ReqWord), s.req = some q → step s = exec (decodeWord q) s

/-- R7, R40: the only step reads the request word that is driven and produces `B32(REQ)`; it reads and writes nothing
else. That the two words stand on the port is log entry 2, that the request still does after the step log entry 9. -/
def Obligations.StepAnswersB32 : Prop :=
  ∀ (s : State) (q : ReqWord), s.req = some q →
    step s = .next { req := some q, rsp := some (b32 alphabet q), block := s.block }

/-- R18: the model's step is the step over the state `Unit`, `step(u, REQ) = (u, B32(REQ))`: the block and the response
after it are R18's step of the block and the request, whatever else the state holds; and the block and the responses
after any list of requests, from any state, are R18's steps one after another. That the request and the response stand
on the port is log entries 2 and 9; the list is the host's and no state. -/
def Obligations.StepIsTheStepOverUnit : Prop :=
  (∀ (s : State) (q : ReqWord), s.req = some q →
    step s = .next { req := some q, rsp := some (blockStep alphabet s.block q).2,
                     block := (blockStep alphabet s.block q).1 }) ∧
  (∀ (qs : List ReqWord) (s : State), ∃ t, session qs s = .next t ∧
    (t.block, responses qs s) = blockRun alphabet s.block qs)

/-- R29: whatever list of requests the host presents, from any state, each response is `B32` of its own request,
whatever was presented before it. That the port holds the last request and its response is log entries 2 and 9. -/
def Obligations.RunAnswersEachRequestOnItsOwn : Prop :=
  ∀ (qs : List ReqWord) (s : State),
    responses qs s = qs.map (b32 alphabet) ∧
    ∃ t, session qs s = .next t ∧ (qs = [] → t = s) ∧
      ∀ q, qs.getLast? = some q → t.req = some q ∧ t.rsp = some (b32 alphabet q)

/-- R27, R29, idempotence: a host that holds its request finds the same response on the port after any number of steps
(the port is log entries 2 and 9). -/
def Obligations.HeldRequestKeepsItsResponse : Prop :=
  ∀ (k : Nat) (s : State) (q : ReqWord), 0 < k → s.req = some q →
    Host.Core.run core k s =
      .next ({ req := some q, rsp := some (b32 alphabet q), block := s.block } : Machine.State)

/-- R27's noninterference: the same request gives the same response from any two states, and presenting a request
changes nothing that a later request can see (the port is log entries 2 and 9). -/
def Obligations.SameRequestGivesSameResponse : Prop :=
  (∀ (s s' : State) (q : ReqWord), s.req = some q → s'.req = some q →
    ∃ t t', step s = .next t ∧ step s' = .next t' ∧ t.rsp = t'.rsp ∧ t.rsp ≠ none) ∧
  (∀ (s : State) (p q : ReqWord), ∃ t, present s p = .next t ∧ present t q = present s q)

/-- R19: at every instant `RSP` is `B32(REQ)` of the request that is driven, and has no value where none is: so it is
from the moment the host drives the request, every step keeps it so and changes nothing of it, and so it is after any
list of requests the host presents. The port as a part of the state is log entries 2 and 9. -/
def Obligations.EveryStepKeepsThePortConsistent : Prop :=
  (∀ (s t : State), s.PortInv → step s = .next t → t.PortInv ∧ t.req = s.req ∧ t = s) ∧
  (∀ (s : State) (o : Option ReqWord), (s.drive o).PortInv ∧ (s.drive o).req = o) ∧
  (∀ (qs : List ReqWord) (s : State), s.PortInv → ∃ t, session qs s = .next t ∧ t.PortInv)

/-- The port invariant holds after reset: of the model's choice of a reset state (log entry 3), since the spec gives B32
no reset. -/
def Obligations.ResetPortIsConsistent : Prop := State.reset.PortInv

/-- The frame of all four operations: every one completes, and changes nothing but the response side of the port. There
is no register, flag, special register, exception register, program counter or memory to change (R10 to R14). -/
def Obligations.OperationsChangeOnlyTheResponse : Prop :=
  ∀ (i : Instr) (s : State), ∃ t, exec i s = .next t ∧
    t.req = s.req ∧ t.block = s.block ∧ t.rsp ≠ none ∧
    ∀ (s' : State), ∃ t', exec i s' = .next t' ∧ t'.rsp = t.rsp

/-! ## Encoding -/

/-- Decoding the word of a well-formed operation gives the operation back, every operand included (which elements an
operation carries is log entry 15). -/
def Obligations.DecodeOfEncodeIsIdentity : Prop :=
  ∀ (i : Instr), i.WellFormed → decodeWord (encode i) = i

/-- The other direction: a word is decoded to a well-formed operation, whose word has the same operation code, the same
count and the same response under every alphabet; the bits it may differ in are ignored ones (log entry 15). -/
def Obligations.EncodeOfDecodeKeepsTheRequest : Prop :=
  ∀ (q : ReqWord), (decodeWord q).WellFormed ∧
    reqOp (encode (decodeWord q)) = reqOp q ∧ reqCnt (encode (decodeWord q)) = reqCnt q ∧
    SameButIgnored q (encode (decodeWord q)) ∧ ∀ A, b32 A (encode (decodeWord q)) = b32 A q

/-- R46: every request word selects exactly one row of the opcode table, the row of the operation it decodes to. -/
def Obligations.EveryWordSelectsOneRow : Prop :=
  ∀ (q : ReqWord), ∃ r ∈ opTable, r.selects q = true ∧ r.mnemonic = (decodeWord q).mnemonic ∧
    ∀ r' ∈ opTable, r'.selects q = true → r' = r

/-- Words the spec prints decode to the operations it prints them for. -/
def Obligations.PrintedWordsDecode : Prop :=
  decodeWord 0x0548656C6C6F000000#70 = .enc 5#4 [0x48#8, 0x65#8, 0x6C#8, 0x6C#8, 0x6F#8] ∧
  decodeWord 0x01FFFFFFFFFFFFFFFF#70 = .enc 1#4 [0xFF#8] ∧
  decodeWord 0x127939303030303030#70 = .dec 2#4 [0x79#8, 0x39#8] ∧
  decodeWord 0x1879626E6472666738#70 =
    .dec 8#4 [0x79#8, 0x62#8, 0x6E#8, 0x64#8, 0x72#8, 0x66#8, 0x67#8, 0x38#8] ∧
  decodeWord 0x23FFFFFFFFFFFFFFFF#70 = .flen 3#4 ∧
  decodeWord 0x360000000000000000#70 = .glen 6#4

/-- The raw form of R47, in bytes (log entry 4): the bytes of a well-formed operation decode to it, a top digit above 3
and any other number of bytes are rejected by name. -/
def Obligations.RawFormsDecodeOrAreRejected : Prop :=
  (∀ (i : Instr), i.WellFormed → (encodeBytes i).length = 9 ∧ decodeBytes (encodeBytes i) = .ok i) ∧
  (∀ (l : List Byte), l.length ≠ 9 → decodeBytes l = .error .notNineBytes) ∧
  (∀ (b : Byte) (l : List Byte), l.length = 8 → 0x3F#8 < b → decodeBytes (b :: l) = .error .topDigit) ∧
  (∀ (b : Byte) (l : List Byte), l.length = 8 → b ≤ 0x3F#8 → ∃ i, decodeBytes (b :: l) = .ok i)

/-- A table word, placed on the port from which the next step takes its request, is decoded and run next (log entries 2,
4, 9 and 14). -/
def Obligations.PlacedTableWordRunsNext : Prop :=
  ∀ (s : State) (nbits w : Nat), w % 2 ^ nbits < 2 ^ 70 →
    ∃ i, decodeTableWord nbits w = some i ∧ i.WellFormed ∧
      (s.withFetchWord nbits w).req = some (BitVec.ofNat 70 (w % 2 ^ nbits)) ∧
      (s.withFetchWord nbits w).block = s.block ∧ (s.withFetchWord nbits w).PortInv ∧
      step (s.withFetchWord nbits w) = exec i (s.withFetchWord nbits w)

/-- R35, R38, R20: the fields of the two words and the eight lanes of their data, bit by bit. -/
def Obligations.FieldsAndLanesOfTheWords : Prop :=
  (∀ (q : ReqWord) (j : Nat),
    (j < 2 → (reqOp q).getLsbD j = q.getLsbD (68 + j)) ∧ (j < 4 → (reqCnt q).getLsbD j = q.getLsbD (64 + j)) ∧
    (j < 64 → (reqData q).getLsbD j = q.getLsbD j)) ∧
  (∀ (w : RspWord) (j : Nat),
    (j < 2 → (rspStatus w).getLsbD j = w.getLsbD (68 + j)) ∧ (j < 4 → (rspCnt w).getLsbD j = w.getLsbD (64 + j)) ∧
    (j < 64 → (rspData w).getLsbD j = w.getLsbD j)) ∧
  (∀ (d : Data),
    lane d 0 = d.extractLsb 63 56 ∧ lane d 1 = d.extractLsb 55 48 ∧ lane d 2 = d.extractLsb 47 40 ∧
    lane d 3 = d.extractLsb 39 32 ∧ lane d 4 = d.extractLsb 31 24 ∧ lane d 5 = d.extractLsb 23 16 ∧
    lane d 6 = d.extractLsb 15 8 ∧ lane d 7 = d.extractLsb 7 0)

/-! ## The four operations -/

/-- R88: `ENC`, for every count and all bytes: the machine's execution answers a next state with the response of R88,
and `B32` gives that response to every `ENC` request under every alphabet. -/
def Obligations.EncAnswersTheSymbolsOfItsBytes : Prop :=
  (∀ (n : Count) (bs : List Byte) (s : State), ∃ w,
    exec (.enc n bs) s = .next { s with rsp := some w } ∧ EncResponse alphabet n.toNat (listed bs) w) ∧
  (∀ (A : Alphabet) (q : ReqWord), reqOp q = 0b00#2 →
    EncResponse A (reqCnt q).toNat (lane (reqData q)) (b32 A q))

/-- R74: `DEC`, for every count and all character codes, by the machine and by `B32` under every alphabet. -/
def Obligations.DecAnswersTheBytesOfItsSymbols : Prop :=
  (∀ (m : Count) (cs : List Byte) (s : State), ∃ w,
    exec (.dec m cs) s = .next { s with rsp := some w } ∧ DecResponse alphabet m.toNat (listed cs) w) ∧
  (∀ (A : Alphabet) (q : ReqWord), reqOp q = 0b01#2 →
    DecResponse A (reqCnt q).toNat (lane (reqData q)) (b32 A q))

/-- R63: `FLEN`, for every index, by the machine and by `B32`. -/
def Obligations.FlenAnswersTheTableEntry : Prop :=
  (∀ (r : Count) (s : State), ∃ w,
    exec (.flen r) s = .next { s with rsp := some w } ∧ FlenResponse r.toNat w) ∧
  (∀ (A : Alphabet) (q : ReqWord), reqOp q = 0b10#2 → FlenResponse (reqCnt q).toNat (b32 A q))

/-- R64: `GLEN`, for every index, by the machine and by `B32`. -/
def Obligations.GlenAnswersTheTableEntry : Prop :=
  (∀ (r : Count) (s : State), ∃ w,
    exec (.glen r) s = .next { s with rsp := some w } ∧ GlenResponse r.toNat w) ∧
  (∀ (A : Alphabet) (q : ReqWord), reqOp q = 0b11#2 → GlenResponse (reqCnt q).toNat (b32 A q))

/-! ## Status and errors -/

/-- R123, R125: the status of every response, the count checked first. -/
def Obligations.StatusChecksCountThenSymbols : Prop :=
  (∀ (A : Alphabet) (q : ReqWord), rspStatus (b32 A q) = statusOf A (decodeWord q)) ∧
  (∀ (i : Instr) (s : State),
    ∃ w, exec i s = .next { s with rsp := some w } ∧ rspStatus w = statusOf alphabet i)

/-- R44: the illegal encodings are exactly the words whose count is out of range; each answers `BadCount` with count 0
and data 0; count 0 is legal for `ENC` and `DEC` and answers `OK` with an empty result. -/
def Obligations.IllegalCountsAnswerBadCount : Prop :=
  (∀ (A : Alphabet) (q : ReqWord), illegalCount q ↔ rspStatus (b32 A q) = 0b10#2) ∧
  (∀ (A : Alphabet) (q : ReqWord), illegalCount q → b32 A q = badCountWord) ∧
  (∀ (A : Alphabet) (q : ReqWord), (reqOp q = 0b00#2 ∨ reqOp q = 0b01#2) → reqCnt q = 0#4 →
    b32 A q = 0x000000000000000000#70)

/-- R120: `InvalidSymbol` is raised by `DEC` alone, exactly where the count is legal and a consumed lane holds a code
outside the alphabet; it records nothing. -/
def Obligations.InvalidSymbolExactlyOnAMissingSymbol : Prop :=
  (∀ (A : Alphabet) (q : ReqWord), rspStatus (b32 A q) = 0b01#2 ↔
    reqOp q = 0b01#2 ∧ (reqCnt q).toNat ≤ 8 ∧ ∃ k < (reqCnt q).toNat, ∀ v, A v ≠ lane (reqData q) k) ∧
  (∀ (A : Alphabet) (q : ReqWord), rspStatus (b32 A q) = 0b01#2 → b32 A q = invalidSymbolWord)

/-- R124, R126: an operation that raises an error completes with the whole response word of that error, nothing else
of the state changes, and the request after it is answered as if the failure had not happened. -/
def Obligations.RaisedErrorsLeaveNothingBehind : Prop :=
  (∀ (i : Instr) (s : State), ∃ w, exec i s = .next { s with rsp := some w } ∧
    (countLegal i = false → w = badCountWord) ∧
    (countLegal i = true → symbolMissing alphabet i = true → w = invalidSymbolWord) ∧
    (rspStatus w ≠ 0b00#2 → w = badCountWord ∨ w = invalidSymbolWord)) ∧
  (∀ (s t : State) (q : ReqWord), step s = .next t →
    t.rsp = some badCountWord ∨ t.rsp = some invalidSymbolWord →
    ∃ t', present t q = .next t' ∧ t'.rsp = some (b32 alphabet q))

/-- R43: the zero fill of a response. -/
def Obligations.UnusedResponseBitsAreZero : Prop :=
  ∀ (A : Alphabet) (q : ReqWord),
    (rspStatus (b32 A q) = 0b00#2 →
      (reqOp q = 0b00#2 ∨ reqOp q = 0b01#2) → ∀ k, (rspCnt (b32 A q)).toNat ≤ k → k < 8 →
        lane (rspData (b32 A q)) k = 0x00#8) ∧
    (reqOp q = 0b01#2 → ∀ k, 5 ≤ k → k < 8 → lane (rspData (b32 A q)) k = 0x00#8) ∧
    (rspStatus (b32 A q) ≠ 0b00#2 → rspCnt (b32 A q) = 0#4 ∧ rspData (b32 A q) = 0#64) ∧
    (reqOp q = 0b10#2 ∨ reqOp q = 0b11#2 → rspData (b32 A q) = 0#64)

/-- R39: the status codes; 0b11 is never produced, so a host can read every response. -/
def Obligations.EveryResponseIsReadable : Prop :=
  ∀ (A : Alphabet) (q : ReqWord),
    rspStatus (b32 A q) ≠ 0b11#2 ∧
    (rspStatus (b32 A q) = 0b00#2 → readRsp (b32 A q) = some (.ok (rspCnt (b32 A q), rspData (b32 A q)))) ∧
    (rspStatus (b32 A q) = 0b01#2 → readRsp (b32 A q) = some (.error .invalidSymbol)) ∧
    (rspStatus (b32 A q) = 0b10#2 → readRsp (b32 A q) = some (.error .badCount)) ∧
    ∃ x, readRsp (b32 A q) = some x

/-- R42: ignored request bits change no bit of the response. -/
def Obligations.IgnoredRequestBitsChangeNothing : Prop :=
  ∀ (A : Alphabet) (q q' : ReqWord), SameButIgnored q q' → b32 A q = b32 A q'

/-- R78, R91: the empty groups, whatever the lanes hold. -/
def Obligations.EmptyGroupsAnswerOkWithNothing : Prop :=
  (∀ (bs : List Byte) (s : State),
    exec (.enc 0#4 bs) s = .next { s with rsp := some 0x000000000000000000#70 }) ∧
  (∀ (cs : List Byte) (s : State),
    exec (.dec 0#4 cs) s = .next { s with rsp := some 0x000000000000000000#70 })

/-! ## The alphabet -/

/-- R53: the reverse lookup finds the unique position whose symbol is the code, and fails where there is none. -/
def Obligations.LookupFindsTheUniquePosition : Prop :=
  ∀ (A : Alphabet), A.Admissible → ∀ (c : Byte),
    (∀ v, lookup A c = some v ↔ A v = c) ∧ (lookup A c = none ↔ ∀ v, A v ≠ c)

/-- R54's count: exactly 32 of the 256 codes are hits and 224 are misses. -/
def Obligations.LookupHas32HitsAnd224Misses : Prop :=
  ∀ (A : Alphabet), A.Admissible →
    (((List.range 256).map (BitVec.ofNat 8)).filter fun c => (lookup A c).isSome).length = 32 ∧
    (((List.range 256).map (BitVec.ofNat 8)).filter fun c => (lookup A c).isNone).length = 224

/-- R50's counting argument: every admissible alphabet has the same set of symbols, the letters and digits other than
`'0'`, `'2'`, `'l'`, `'v'`. -/
def Obligations.AdmissibleAlphabetsShareTheirSymbols : Prop :=
  ∀ (A : Alphabet), A.Admissible → ∀ (c : Byte),
    (∃ v, A v = c) ↔ lowerOrDigit c ∧ c ≠ 0x30#8 ∧ c ≠ 0x32#8 ∧ c ≠ 0x6C#8 ∧ c ≠ 0x76#8

/-- R55, R56: codes that miss under every admissible alphabet (uppercase letters, the four omitted characters,
everything that is no lowercase letter and no digit), and the hits of the default alphabet (its contents are
log entry 1). -/
def Obligations.CodesOutsideEveryAlphabet : Prop :=
  (∀ (A : Alphabet), A.Admissible → ∀ (c : Byte),
    (0x41#8 ≤ c ∧ c ≤ 0x5A#8) ∨ c = 0x30#8 ∨ c = 0x32#8 ∨ c = 0x6C#8 ∨ c = 0x76#8 ∨ c < 0x30#8 ∨
      (0x3A#8 ≤ c ∧ c ≤ 0x60#8) ∨ 0x7B#8 ≤ c → lookup A c = none) ∧
  (∀ (c : Byte), (lookup zbase32 c).isSome = true ↔
    c ∈ (['y', 'b', 'n', 'd', 'r', 'f', 'g', '8', 'e', 'j', 'k', 'm', 'c', 'p', 'q', 'x', 'o', 't', '1', 'u', 'w',
      'i', 's', 'z', 'a', '3', '4', '5', 'h', '7', '6', '9'].map fun x => BitVec.ofNat 8 x.toNat))

/-! ## The tables and the regrouping -/

/-- R60, R61, and what the spec infers from them: the extension to the full group (R62) and the closed forms (R65). -/
def Obligations.RemainderTablesAreCeilings : Prop :=
  ((List.range 5).map f = [some 0, some 2, some 4, some 5, some 7] ∧ ∀ r, 5 ≤ r → f r = none) ∧
  ((List.range 8).map g = [some 0, some 1, some 2, some 2, some 3, some 4, some 4, some 5] ∧
    ∀ r, 8 ≤ r → g r = none) ∧
  (∀ n, F n = if n ≤ 5 then some ((8 * n + 4) / 5) else none) ∧
  (∀ m, G m = if m ≤ 8 then some ((5 * m + 7) / 8) else none)

/-- R66, R67: the slack of a remainder block, and the tables composed. -/
def Obligations.TableSlackAndComposition : Prop :=
  (∀ r k, f r = some k → 8 * r ≤ 5 * k ∧ 5 * k - 8 * r < 5 ∧ [0, 2, 4, 1, 3][r]? = some (5 * k - 8 * r)) ∧
  (∀ r k, g r = some k → 5 * r ≤ 8 * k ∧ 8 * k - 5 * r < 8 ∧
    [0, 3, 6, 1, 4, 7, 2, 5][r]? = some (8 * k - 5 * r)) ∧
  (∀ n k, F n = some k → G k = if n % 5 = 0 then some n else some (n + 1)) ∧
  (∀ m k, G m = some k → F k = [0, 2, 4, 4, 5, 7, 7, 8, 8][m]?) ∧
  (∀ n, F n ≠ some 1 ∧ F n ≠ some 3 ∧ F n ≠ some 6)

/-- R22: window bit `39-p` is bit `7-(p mod 8)` of byte `⌊p/8⌋` and bit `4-(p mod 5)` of value `⌊p/5⌋`
(the order is log entry 5). -/
def Obligations.WindowBitsKeepTheirPlace : Prop :=
  (∀ (b : Nat → Byte) (p : Nat), p < 40 →
    (regroup58 b (p / 5)).getLsbD (4 - p % 5) = (b (p / 8)).getLsbD (7 - p % 8)) ∧
  (∀ (v : Nat → Value) (p : Nat), p < 40 →
    (regroup85 v (p / 8)).getLsbD (7 - p % 8) = (v (p / 5)).getLsbD (4 - p % 5))

/-- R72: `Regroup85` by slices and by shifts and masks, a bijection with inverse `Regroup58` (log entry 5). -/
def Obligations.RegroupToBytesBySlices : Prop :=
  (∀ (v : Nat → Value), ∀ i < 5, regroup85 v i = slices85 v i) ∧
  (∀ (v : Nat → Value),
    (regroup85 v 0).toNat = ((v 0).toNat <<< 3) ||| ((v 1).toNat >>> 2) ∧
    (regroup85 v 1).toNat = (((v 1).toNat &&& 0x03) <<< 6) ||| ((v 2).toNat <<< 1) ||| ((v 3).toNat >>> 4) ∧
    (regroup85 v 2).toNat = (((v 3).toNat &&& 0x0F) <<< 4) ||| ((v 4).toNat >>> 1) ∧
    (regroup85 v 3).toNat = (((v 4).toNat &&& 0x01) <<< 7) ||| ((v 5).toNat <<< 2) ||| ((v 6).toNat >>> 3) ∧
    (regroup85 v 4).toNat = (((v 6).toNat &&& 0x07) <<< 5) ||| (v 7).toNat) ∧
  (∀ (v : Nat → Value), ∀ k < 8, regroup58 (regroup85 v) k = v k) ∧
  (∀ (b : Nat → Byte), ∀ i < 5, regroup85 (regroup58 b) i = b i)

/-- R86: `Regroup58` by slices and by shifts and masks (log entry 5). -/
def Obligations.RegroupToValuesBySlices : Prop :=
  (∀ (b : Nat → Byte), ∀ k < 8, regroup58 b k = slices58 b k) ∧
  (∀ (b : Nat → Byte),
    (regroup58 b 0).toNat = (b 0).toNat >>> 3 ∧
    (regroup58 b 1).toNat = (((b 0).toNat &&& 0x07) <<< 2) ||| ((b 1).toNat >>> 6) ∧
    (regroup58 b 2).toNat = ((b 1).toNat >>> 1) &&& 0x1F ∧
    (regroup58 b 3).toNat = (((b 1).toNat &&& 0x01) <<< 4) ||| ((b 2).toNat >>> 4) ∧
    (regroup58 b 4).toNat = (((b 2).toNat &&& 0x0F) <<< 1) ||| ((b 3).toNat >>> 7) ∧
    (regroup58 b 5).toNat = ((b 3).toNat >>> 2) &&& 0x1F ∧
    (regroup58 b 6).toNat = (((b 3).toNat &&& 0x03) <<< 3) ||| ((b 4).toNat >>> 5) ∧
    (regroup58 b 7).toNat = (b 4).toNat &&& 0x1F)

/-- R73, R76: the bytes `DEC` does not emit are zero, and so are the low bits of the last emitted byte that come from
absent symbols. -/
def Obligations.DroppedDecodeBytesAreZero : Prop :=
  ∀ (A : Alphabet) (m k : Nat) (c : Nat → Byte), G m = some k →
    (∀ i, k ≤ i → i < 5 → decByte A m c i = 0x00#8) ∧
    (0 < m → (decByte A m c (k - 1)).toNat % 2 ^ (8 * k - 5 * m) = 0)

/-- R87, R90: the values `ENC` suppresses are zero, and so are the low bits of the last emitted value that come from
absent bytes. -/
def Obligations.SuppressedEncodeValuesAreZero : Prop :=
  ∀ (n k : Nat) (b : Nat → Byte), F n = some k →
    (∀ j, k ≤ j → j < 8 → encValue n b j = 0#5) ∧
    (0 < n → (encValue n b (k - 1)).toNat % 2 ^ (5 * k - 8 * n) = 0)

/-- R90: `ENC` loses no input bit: different bytes under the same count give different responses. -/
def Obligations.EncodeGroupLosesNoBit : Prop :=
  ∀ (A : Alphabet), A.Admissible → ∀ (n : Nat) (b b' : Nat → Byte), n ≤ 5 →
    encGroup A n b = encGroup A n b' → ∀ i < n, b i = b' i

/-- R92, R79: `ENC 5` and `DEC 8` are inverse, in both orders, on the machine. -/
def Obligations.FullGroupsAreInverse : Prop :=
  (∀ (bs : List Byte) (s s' : State), bs.length = 5 →
    ∃ w w', exec (.enc 5#4 bs) s = .next { s with rsp := some w } ∧
      exec (.dec 8#4 (rspBytes w)) s' = .next { s' with rsp := some w' } ∧
      rspStatus w' = 0b00#2 ∧ rspBytes w' = bs) ∧
  (∀ (cs : List Byte) (s s' : State), cs.length = 8 → (∀ c ∈ cs, ∃ v, alphabet v = c) →
    ∃ w w', exec (.dec 8#4 cs) s = .next { s with rsp := some w } ∧
      exec (.enc 5#4 (rspBytes w)) s' = .next { s' with rsp := some w' } ∧
      rspStatus w' = 0b00#2 ∧ rspBytes w' = cs)

/-! ## Whole sequences -/

/-- R25, R150: the groups of a sequence put together are the sequence; all but the last are full, none is empty or too
long, and there are `⌈n/k⌉` of them. -/
def Obligations.GroupsCutTheSequence : Prop :=
  ∀ (k : Nat) (l : List Byte), 0 < k →
    (groups k l).flatten = l ∧ (groups k l).length = (l.length + k - 1) / k ∧
    (∀ x ∈ groups k l, 0 < x.length ∧ x.length ≤ k) ∧ ∀ x ∈ (groups k l).dropLast, x.length = k

/-- R101: `ENCODE` never fails: every response of its expansion is `OK`. -/
def Obligations.EncodeNeverFails : Prop :=
  ∀ (A : Alphabet) (b : List Byte), ∀ q ∈ encodeRequests b, rspStatus (b32 A q) = 0b00#2

/-- R102: the length law of `ENCODE` and its first values, and what the spec infers from the table `f`: that the length
is strictly increasing, and the lengths it takes. -/
def Obligations.EncodeLengthLaw : Prop :=
  (∀ (A : Alphabet) (b : List Byte), (encodeSeq A b).length = encLen b.length) ∧
  (∀ n, ∃ k, f (n % 5) = some k ∧ encLen n = n / 5 * 8 + k) ∧
  (List.range 13).map encLen = [0, 2, 4, 5, 7, 8, 10, 12, 13, 15, 16, 18, 20] ∧
  (∀ n n', n < n' → encLen n < encLen n') ∧
  (∀ l, (∃ n, encLen n = l) ↔ l % 8 = 0 ∨ l % 8 = 2 ∨ l % 8 = 4 ∨ l % 8 = 5 ∨ l % 8 = 7)

/-- R104: `DECODE` fails exactly where some character is outside the alphabet, and succeeds otherwise; a failing group
has no bytes; a host that stops at any point at or after a failing response has the same failure; `BadCount` does not
occur. -/
def Obligations.DecodeFailsExactlyOffTheAlphabet : Prop :=
  (∀ (A : Alphabet) (s : List Byte), decodeSeq A s = .failure ↔ ∃ c ∈ s, ∀ v, A v ≠ c) ∧
  (∀ (A : Alphabet) (s : List Byte), (∀ c ∈ s, ∃ v, A v = c) → ∃ x, decodeSeq A s = .success x) ∧
  (∀ (A : Alphabet) (s : List Byte) (k : Nat),
    (∃ w ∈ ((decodeRequests s).map (b32 A)).take k, rspStatus w = 0b01#2) →
    collect (((decodeRequests s).map (b32 A)).take k) = .failure ∧ decodeSeq A s = .failure) ∧
  (∀ (A : Alphabet) (s : List Byte), ∀ q ∈ decodeRequests s,
    rspStatus (b32 A q) ≠ 0b10#2 ∧ (rspStatus (b32 A q) = 0b01#2 → rspBytes (b32 A q) = []))

/-- R105: the length law of `DECODE`, its first values, that it does not decrease, and that it is not injective. -/
def Obligations.DecodeLengthLaw : Prop :=
  (∀ (A : Alphabet) (s x : List Byte), decodeSeq A s = .success x → x.length = decLen s.length) ∧
  (∀ m, ∃ k, g (m % 8) = some k ∧ decLen m = m / 8 * 5 + k) ∧
  (List.range 17).map decLen = [0, 1, 2, 2, 3, 4, 4, 5, 5, 6, 7, 7, 8, 9, 9, 10, 10] ∧
  (∀ m m', m ≤ m' → decLen m ≤ decLen m') ∧
  decLen 2 = decLen 3 ∧ decLen 5 = decLen 6 ∧ decLen 7 = decLen 8

/-- R106: the empty sequences. -/
def Obligations.EmptySequences : Prop :=
  ∀ (A : Alphabet), encodeSeq A [] = [] ∧ decodeSeq A [] = .success [] ∧ decodeSeq A [] ≠ .failure

/-- R107: every character of an encoding is a symbol of the alphabet, so that an encoding always decodes. -/
def Obligations.EncodeEmitsOnlySymbols : Prop :=
  (∀ (A : Alphabet) (b : List Byte), ∀ c ∈ encodeSeq A b, ∃ v, A v = c) ∧
  (∀ (A : Alphabet) (b : List Byte), ∃ x, decodeSeq A (encodeSeq A b) = .success x)

/-- R108 (90_conflicts.md C1): the round trip from bytes gives the bytes back, and one zero byte more where their number
is no multiple of 5. -/
def Obligations.BytesComeBackFromTheirEncoding : Prop :=
  ∀ (A : Alphabet), A.Admissible → ∀ (b : List Byte),
    decodeSeq A (encodeSeq A b) = .success (if b.length % 5 = 0 then b else b ++ [0x00#8])

/-- R109: the round trip from symbols gives the symbols back, with copies of `A(0)` after them. -/
def Obligations.SymbolsComeBackFromTheirDecoding : Prop :=
  ∀ (A : Alphabet), A.Admissible → ∀ (s x : List Byte), decodeSeq A s = .success x →
    ∃ k, [0, 1, 2, 1, 1, 2, 1, 1][s.length % 8]? = some k ∧ encodeSeq A x = s ++ List.replicate k (A 0#5)

/-- R110: `ENCODE` is injective, `DECODE` is not. -/
def Obligations.EncodeIsInjective : Prop :=
  (∀ (A : Alphabet), A.Admissible → ∀ (b b' : List Byte), encodeSeq A b = encodeSeq A b' → b = b') ∧
  (∀ (A : Alphabet), A.Admissible →
    decodeSeq A [0x79#8, 0x79#8] = .success [0x00#8, 0x00#8] ∧
    decodeSeq A [0x79#8, 0x79#8, 0x79#8] = .success [0x00#8, 0x00#8])

/-- R111: concatenation at a group boundary. -/
def Obligations.ConcatenationAtAGroupBoundary : Prop :=
  (∀ (A : Alphabet) (a b : List Byte), a.length % 5 = 0 → encodeSeq A (a ++ b) = encodeSeq A a ++ encodeSeq A b) ∧
  (∀ (A : Alphabet) (s t x y : List Byte), s.length % 8 = 0 →
    decodeSeq A s = .success x → decodeSeq A t = .success y → decodeSeq A (s ++ t) = .success (x ++ y)) ∧
  (∀ (A : Alphabet) (s t : List Byte), s.length % 8 = 0 →
    ((∃ z, decodeSeq A (s ++ t) = .success z) ↔
      (∃ x, decodeSeq A s = .success x) ∧ ∃ y, decodeSeq A t = .success y))

/-- R25's example: the bytes FF FF cut as one group of 2 and as two groups of 1 give different texts. (It is an example:
00 00 gives the same text either way.) -/
def Obligations.BytesFFFFCutInTwoGroupsDiffer : Prop :=
  ∀ (A : Alphabet), A.Admissible →
    encodeSeq A [0xFF#8, 0xFF#8] = [A 31#5, A 31#5, A 31#5, A 16#5] ∧
    encodeSeq A [0xFF#8] ++ encodeSeq A [0xFF#8] = [A 31#5, A 28#5, A 31#5, A 28#5] ∧
    encodeSeq A [0xFF#8, 0xFF#8] ≠ encodeSeq A [0xFF#8] ++ encodeSeq A [0xFF#8]

/-- R112: the source's vectors at sequence level, under every admissible alphabet. -/
def Obligations.SourceVectorsHold : Prop :=
  ∀ (A : Alphabet), A.Admissible →
    encodeSeq A (List.replicate 5 0x00#8) = List.replicate 8 0x79#8 ∧
    decodeSeq A (List.replicate 8 0x79#8) = .success (List.replicate 5 0x00#8) ∧
    encodeSeq A (List.replicate 5 0xFF#8) = List.replicate 8 0x39#8 ∧
    decodeSeq A (List.replicate 8 0x39#8) = .success (List.replicate 5 0xFF#8) ∧
    decodeSeq A [0x30#8] = .failure

/-- R100, R103, R104: a host that presents the expansion of a pseudo-operation to the machine, from any state, collects
the result of the pseudo-operation. That it reads each response off the port is log entry 2, and that the host of
`DECODE` reads every response is log entry 13. -/
def Obligations.MachineRunsThePseudoOperations : Prop :=
  (∀ (b : List Byte) (s : State), (responses (encodeRequests b) s).flatMap rspBytes = encodeSeq alphabet b) ∧
  (∀ (x : List Byte) (s : State), collect (responses (decodeRequests x) s) = decodeSeq alphabet x)

/-- R47, R48: what an assembler line stands for (lines as terms are log entry 12). A line with a count assembles exactly
where the count is 0 to 15, it lists as many elements as R47 asks and its text is ASCII, to one word that decodes to the
line; a raw line exactly where its number has at most 70 bits, to that word; a pseudo-operation's line to words that
decode to its group requests in order, `DECODE` exactly where its text is ASCII. -/
def Obligations.AssembledLinesDecodeBack : Prop :=
  (∀ n bs, n < 16 → bs.length = min n 5 →
    ∃ w, assemble (.enc n bs) = some [w] ∧ decodeWord w = .enc (BitVec.ofNat 4 n) bs) ∧
  (∀ n bs, n ≥ 16 ∨ bs.length ≠ min n 5 → assemble (.enc n bs) = none) ∧
  (∀ m cs, m < 16 → cs.length = min m 8 →
    ∃ w, assemble (.decCodes m cs) = some [w] ∧ decodeWord w = .dec (BitVec.ofNat 4 m) cs) ∧
  (∀ m cs, m ≥ 16 ∨ cs.length ≠ min m 8 → assemble (.decCodes m cs) = none) ∧
  (∀ m (t : List Char), m < 16 → t.length = min m 8 → (∀ c ∈ t, c.toNat < 128) →
    ∃ w, assemble (.decText m t) = some [w] ∧
      decodeWord w = .dec (BitVec.ofNat 4 m) (t.map fun c => BitVec.ofNat 8 c.toNat)) ∧
  (∀ m (t : List Char), m ≥ 16 ∨ t.length ≠ min m 8 ∨ (∃ c ∈ t, 128 ≤ c.toNat) →
    assemble (.decText m t) = none) ∧
  (∀ r, r < 16 → ∃ w, assemble (.flen r) = some [w] ∧ decodeWord w = .flen (BitVec.ofNat 4 r)) ∧
  (∀ r, r ≥ 16 → assemble (.flen r) = none) ∧
  (∀ r, r < 16 → ∃ w, assemble (.glen r) = some [w] ∧ decodeWord w = .glen (BitVec.ofNat 4 r)) ∧
  (∀ r, r ≥ 16 → assemble (.glen r) = none) ∧
  (∀ raw, raw < 2 ^ 70 → ∃ w, assemble (.req raw) = some [w] ∧ w.toNat = raw) ∧
  (∀ raw, raw ≥ 2 ^ 70 → assemble (.req raw) = none) ∧
  (∀ bs, ∃ ws, assemble (.encode bs) = some ws ∧ ws.map decodeWord = (groups 5 bs).map encRequest) ∧
  (∀ (t : List Char), (∀ c ∈ t, c.toNat < 128) →
    ∃ ws, assemble (.decode t) = some ws ∧
      ws.map decodeWord = (groups 8 (t.map fun c => BitVec.ofNat 8 c.toNat)).map decRequest) ∧
  (∀ (t : List Char), (∃ c ∈ t, 128 ≤ c.toNat) → assemble (.decode t) = none)
end

