-- ==== Sys2Proof/Laws/Alphabet.lean ====
section
/-! SUPPORT. The reverse lookup against the alphabet, and that the default alphabet is admissible. -/

namespace Sys2Proof.Machine

theorem mem_allValues (v : Value) : v ∈ allValues := by
  simp only [allValues, List.mem_map, List.mem_range]
  exact ⟨v.toNat, v.isLt, by simp⟩

/-- A hit names a value whose symbol is the code. -/
theorem lookup_sound {A : Alphabet} {c : Byte} {v : Value} (h : lookup A c = some v) : A v = c := by
  simpa using List.find?_some h

/-- A miss: no symbol is the code. -/
theorem lookup_eq_none {A : Alphabet} {c : Byte} : lookup A c = none ↔ ∀ v, A v ≠ c := by
  simp only [lookup, List.find?_eq_none, beq_iff_eq]
  exact ⟨fun h v => h v (mem_allValues v), fun h v _ => h v⟩

/-- Every symbol of an alphabet with different entries is a hit. -/
theorem lookup_symbol {A : Alphabet} (hA : A.Admissible) (v : Value) : lookup A (A v) = some v := by
  cases h : lookup A (A v) with
  | none => exact absurd rfl (lookup_eq_none.mp h v)
  | some w => rw [hA.distinct w v (lookup_sound h)]

/-- The default alphabet meets everything that may be assumed of an alphabet (R50, R51). -/
theorem zbase32_admissible : zbase32.Admissible where
  distinct := by decide +revert
  charset := by decide
  omits := by decide
  zero := by decide
  last := by decide

theorem alphabet_admissible : alphabet.Admissible := zbase32_admissible

end Sys2Proof.Machine
end

