-- ==== Sys2Proof/Laws/Assembly.lean ====
section
/-! SUPPORT. What the helpers of the assembler do, said once. -/

namespace Sys2Proof.Machine

/-- A text is read where every character is ASCII, and then to the characters' codes. -/
theorem asciiCodes_eq_some {text : List Char} {cs : List Byte} :
    asciiCodes text = some cs ↔
      (∀ c ∈ text, c.toNat < 128) ∧ cs = text.map fun c => BitVec.ofNat 8 c.toNat := by
  unfold asciiCodes
  split <;> simp_all [eq_comm (a := cs)]

/-- A text is refused where some character is not ASCII. -/
theorem asciiCodes_eq_none {text : List Char} : asciiCodes text = none ↔ ∃ c ∈ text, 128 ≤ c.toNat := by
  simp [asciiCodes]

/-- A line with a count assembles where the count is 0 to 15 and the operation is well formed, to its one word. -/
theorem countedWord_eq_some {count : Nat} {i : Instr} {ws : List ReqWord} :
    countedWord count i = some ws ↔ count < 16 ∧ i.WellFormed ∧ ws = [encode i] := by
  unfold countedWord
  split <;> simp_all [Instr.WellFormed, eq_comm (a := ws)]

/-- A line with a count is refused everywhere else. -/
theorem countedWord_eq_none {count : Nat} {i : Instr} :
    countedWord count i = none ↔ 16 ≤ count ∨ ¬ i.WellFormed := by
  simp only [countedWord, ite_eq_right_iff, reduceCtorEq, imp_false, not_and_or, Nat.not_lt]

end Sys2Proof.Machine
end

