-- ==== Sys2Proof/Laws/Regroup.lean ====
section
/-! SUPPORT. The window bit by bit: where each bit of an element stands, and that both views of a window give it back. -/

namespace Sys2Proof.Machine

/-- Bit `j` of a window of bytes: bit `j % 8` of byte `4 - j / 8`. -/
theorem getLsbD_windowOfBytes (b : Nat → Byte) {j : Nat} (h : j < 40) :
    (windowOfBytes b).getLsbD j = (b (4 - j / 8)).getLsbD (j % 8) := by
  simp only [windowOfBytes, BitVec.getLsbD_append]
  interval_cases j <;> simp

/-- Bit `j` of a window of values: bit `j % 5` of value `7 - j / 5`. -/
theorem getLsbD_windowOfValues (v : Nat → Value) {j : Nat} (h : j < 40) :
    (windowOfValues v).getLsbD j = (v (7 - j / 5)).getLsbD (j % 5) := by
  simp only [windowOfValues, BitVec.getLsbD_append]
  interval_cases j <;> simp

theorem getLsbD_windowByte (w : Window) (i j : Nat) :
    (windowByte w i).getLsbD j = (decide (j < 8) && w.getLsbD (32 - 8 * i + j)) := by
  simp [windowByte, BitVec.getLsbD_extractLsb']

theorem getLsbD_windowValue (w : Window) (k j : Nat) :
    (windowValue w k).getLsbD j = (decide (j < 5) && w.getLsbD (35 - 5 * k + j)) := by
  simp [windowValue, BitVec.getLsbD_extractLsb']

/-- The byte view of a window gives the window back. -/
theorem windowOfBytes_windowByte (w : Window) : windowOfBytes (windowByte w) = w := by
  apply BitVec.eq_of_getLsbD_eq
  intro j hj
  rw [getLsbD_windowOfBytes _ hj, getLsbD_windowByte, show 32 - 8 * (4 - j / 8) + j % 8 = j by omega]
  simp [Nat.mod_lt]

/-- The value view of a window gives the window back. -/
theorem windowOfValues_windowValue (w : Window) : windowOfValues (windowValue w) = w := by
  apply BitVec.eq_of_getLsbD_eq
  intro j hj
  rw [getLsbD_windowOfValues _ hj, getLsbD_windowValue, show 35 - 5 * (7 - j / 5) + j % 5 = j by omega]
  simp [Nat.mod_lt]

/-- Byte `i` of a window of bytes. -/
theorem windowByte_windowOfBytes (b : Nat → Byte) {i : Nat} (h : i < 5) : windowByte (windowOfBytes b) i = b i := by
  apply BitVec.eq_of_getLsbD_eq
  intro j hj
  rw [getLsbD_windowByte, getLsbD_windowOfBytes b (by omega), show 4 - (32 - 8 * i + j) / 8 = i by omega,
    show (32 - 8 * i + j) % 8 = j by omega]
  simp [hj]

/-- Value `k` of a window of values. -/
theorem windowValue_windowOfValues (v : Nat → Value) {k : Nat} (h : k < 8) :
    windowValue (windowOfValues v) k = v k := by
  apply BitVec.eq_of_getLsbD_eq
  intro j hj
  rw [getLsbD_windowValue, getLsbD_windowOfValues v (by omega), show 7 - (35 - 5 * k + j) / 5 = k by omega,
    show (35 - 5 * k + j) % 5 = j by omega]
  simp [hj]

theorem windowOfBytes_congr {b b' : Nat → Byte} (h : ∀ i < 5, b i = b' i) : windowOfBytes b = windowOfBytes b' := by
  simp [windowOfBytes, h]

theorem windowOfValues_congr {v v' : Nat → Value} (h : ∀ k < 8, v k = v' k) :
    windowOfValues v = windowOfValues v' := by
  simp [windowOfValues, h]

end Sys2Proof.Machine
end

