-- ==== Sys2Proof/Laws/State.lean ====
section
/-! SUPPORT. One lemma per field per update of the state, true by rfl. -/

namespace Sys2Proof.Machine

@[simp] theorem setRsp_req (s : State) (w : RspWord) : (s.setRsp w).req = s.req := rfl
@[simp] theorem setRsp_rsp (s : State) (w : RspWord) : (s.setRsp w).rsp = some w := rfl
@[simp] theorem setRsp_block (s : State) (w : RspWord) : (s.setRsp w).block = s.block := rfl
@[simp] theorem setRsp_setRsp (s : State) (v w : RspWord) : (s.setRsp v).setRsp w = s.setRsp w := rfl

@[simp] theorem drive_req (s : State) (o : Option ReqWord) : (s.drive o).req = o := rfl
@[simp] theorem drive_rsp (s : State) (o : Option ReqWord) : (s.drive o).rsp = o.map (b32 alphabet) := rfl
@[simp] theorem drive_block (s : State) (o : Option ReqWord) : (s.drive o).block = s.block := rfl
@[simp] theorem drive_drive (s : State) (o o' : Option ReqWord) : (s.drive o).drive o' = s.drive o' := rfl
@[simp] theorem setRsp_drive (s : State) (w : RspWord) (o : Option ReqWord) : (s.setRsp w).drive o = s.drive o := rfl

@[simp] theorem reset_req : State.reset.req = none := rfl
@[simp] theorem reset_rsp : State.reset.rsp = none := rfl
@[simp] theorem reset_block : State.reset.block = () := rfl

end Sys2Proof.Machine
end

