-- ==== Sys2Proof/Laws/Words.lean ====
section
/-! SUPPORT. Fields and lanes of the words of the port: what a field of a packed word is, and that a word is determined
by its fields. -/

namespace Sys2Proof

@[simp] theorem reqOp_packReq (o : BitVec 2) (c : Count) (d : Data) : reqOp (packReq o c d) = o := by
  ext i hi
  simp only [reqOp, packReq, BitVec.getElem_extractLsb', BitVec.getLsbD_append]
  rw [if_neg (by omega), if_neg (by omega)]
  simp [BitVec.getLsbD_eq_getElem hi, show 68 + i - 64 - 4 = i by omega]

@[simp] theorem reqCnt_packReq (o : BitVec 2) (c : Count) (d : Data) : reqCnt (packReq o c d) = c := by
  ext i hi
  simp only [reqCnt, packReq, BitVec.getElem_extractLsb', BitVec.getLsbD_append]
  rw [if_neg (by omega), if_pos (by omega)]
  simp [BitVec.getLsbD_eq_getElem hi]

@[simp] theorem reqData_packReq (o : BitVec 2) (c : Count) (d : Data) : reqData (packReq o c d) = d := by
  ext i hi
  simp only [reqData, packReq, BitVec.getElem_extractLsb', BitVec.getLsbD_append]
  rw [if_pos (by omega)]
  simp [BitVec.getLsbD_eq_getElem hi]

/-- A request word is its three fields. -/
theorem packReq_fields (q : ReqWord) : packReq (reqOp q) (reqCnt q) (reqData q) = q := by
  apply BitVec.eq_of_getLsbD_eq
  intro i hi
  simp only [packReq, reqOp, reqCnt, reqData, BitVec.getLsbD_append, BitVec.getLsbD_extractLsb']
  by_cases h1 : i < 64
  · simp [h1]
  · by_cases h2 : i - 64 < 4
    · simp [h1, h2, show 64 + (i - 64) = i by omega]
    · simp [h1, h2, show 68 + (i - 64 - 4) = i by omega, show i - 64 - 4 < 2 by omega]

/-- Bit `j` of lane `i`. -/
theorem getLsbD_lane (d : Data) (i j : Nat) : (lane d i).getLsbD j = (decide (j < 8) && d.getLsbD (56 - 8 * i + j)) := by
  simp [lane, BitVec.getLsbD_extractLsb']

/-- Bit `j` of a data field built from its lanes: bit `j % 8` of lane `7 - j / 8`. -/
theorem getLsbD_dataOf (e : Nat → Byte) {j : Nat} (h : j < 64) :
    (dataOf e).getLsbD j = (e (7 - j / 8)).getLsbD (j % 8) := by
  simp only [dataOf, BitVec.getLsbD_append]
  interval_cases j <;> simp

/-- Lane `i` of a data field built from its lanes. -/
theorem lane_dataOf (e : Nat → Byte) {i : Nat} (h : i < 8) : lane (dataOf e) i = e i := by
  apply BitVec.eq_of_getLsbD_eq
  intro j hj
  rw [getLsbD_lane, getLsbD_dataOf e (by omega), show 7 - (56 - 8 * i + j) / 8 = i by omega,
    show (56 - 8 * i + j) % 8 = j by omega]
  simp [hj]

/-- A data field is built from its lanes. -/
theorem dataOf_lane (d : Data) : dataOf (lane d) = d := by
  apply BitVec.eq_of_getLsbD_eq
  intro j hj
  rw [getLsbD_dataOf _ hj, getLsbD_lane, show 56 - 8 * (7 - j / 8) + j % 8 = j by omega]
  simp [Nat.mod_lt]

/-- Two data fields with the same eight lanes are equal. -/
theorem data_ext {d d' : Data} (h : ∀ i < 8, lane d i = lane d' i) : d = d' := by
  rw [← dataOf_lane d, ← dataOf_lane d']
  simp [dataOf, h]

/-- The data field depends on lanes 0 to 7 only. -/
theorem dataOf_congr {e e' : Nat → Byte} (h : ∀ i < 8, e i = e' i) : dataOf e = dataOf e' := by
  simp [dataOf, h]

@[simp] theorem lanes_length (k : Nat) (d : Data) : (lanes k d).length = k := by simp [lanes]

/-- Element `i` of the listed lanes. -/
theorem listed_lanes (d : Data) {k i : Nat} (h : i < k) : listed (lanes k d) i = lane d i := by
  simp [listed, lanes, h]

/-- The listed elements come back from the data field they were assembled into. -/
theorem lanes_dataOf_listed {es : List Byte} {k : Nat} (hk : es.length = k) (h8 : k ≤ 8) :
    lanes k (dataOf (listed es)) = es := by
  apply List.ext_getElem
  · simp [hk]
  · intro i h1 h2
    simp only [lanes, List.getElem_map, List.getElem_range]
    rw [lane_dataOf _ (by omega)]
    simp [listed, h2]

end Sys2Proof

namespace Sys2Proof.Machine

@[simp] theorem rspStatus_packRsp (r : Rsp) : rspStatus (packRsp r) = r.status := reqOp_packReq _ _ _
@[simp] theorem rspCnt_packRsp (r : Rsp) : rspCnt (packRsp r) = r.cnt := reqCnt_packReq _ _ _
@[simp] theorem rspData_packRsp (r : Rsp) : rspData (packRsp r) = r.data := reqData_packReq _ _ _

/-- A response word is determined by its three fields. -/
theorem packRsp_fields (w : RspWord) : packRsp ⟨rspStatus w, rspCnt w, rspData w⟩ = w := packReq_fields w

/-- Packing loses nothing. -/
theorem packRsp_inj {r r' : Rsp} (h : packRsp r = packRsp r') : r = r' := by
  have h1 := congrArg rspStatus h
  have h2 := congrArg rspCnt h
  have h3 := congrArg rspData h
  simp only [rspStatus_packRsp, rspCnt_packRsp, rspData_packRsp] at h1 h2 h3
  cases r; cases r'; simp_all

end Sys2Proof.Machine
end

