-- ==== Sys2Proof/Laws/Ops.lean ====
section
/-! SUPPORT. What each shared operation does, said once: answering, responses, operand masking, table values. -/

namespace Sys2Proof.Machine

/-- `answer` gives the one next state in which the response stands on the port. -/
theorem answer_next {r : Rsp} {s t : State} : answer r s = .next t ↔ t = s.setRsp (packRsp r) := by
  simp [answer, unitStep, State.setRsp, eq_comm]

/-- The port of the next state after an answer. -/
theorem answer_frame {r : Rsp} {s t : State} (h : answer r s = .next t) :
    t.block = s.block ∧ t.req = s.req ∧ t.rsp = some (packRsp r) := by
  rw [answer_next.mp h]; simp

@[simp] theorem raise_status (e : Error) : (raise e).status = errorCode e := rfl
@[simp] theorem raise_cnt (e : Error) : (raise e).cnt = 0#4 := rfl
@[simp] theorem raise_data (e : Error) : (raise e).data = 0#64 := rfl
@[simp] theorem okSize_status (k : Nat) : (okSize k).status = okCode := rfl
@[simp] theorem okSize_cnt (k : Nat) : (okSize k).cnt = BitVec.ofNat 4 k := rfl
@[simp] theorem okSize_data (k : Nat) : (okSize k).data = 0#64 := rfl
@[simp] theorem okElements_status (k : Nat) (e : Nat → Byte) : (okElements k e).status = okCode := rfl
@[simp] theorem okElements_cnt (k : Nat) (e : Nat → Byte) : (okElements k e).cnt = BitVec.ofNat 4 k := rfl

/-- Lane `j` of an `OK` response: the element inside the count, 0x00 outside. -/
theorem lane_okElements (k : Nat) (e : Nat → Byte) {j : Nat} (h : j < 8) :
    lane (okElements k e).data j = if j < k then e j else 0x00#8 := by
  simp only [okElements]
  rw [lane_dataOf _ h]

/-- `bytes(RSP)` of an `OK` response is the list of its elements. -/
theorem rspBytes_okElements {k : Nat} (e : Nat → Byte) (h : k ≤ 8) :
    rspBytes (packRsp (okElements k e)) = (List.range k).map e := by
  have hk : (BitVec.ofNat 4 k).toNat = k := by simp; omega
  simp only [rspBytes, lanes, rspCnt_packRsp, rspData_packRsp, okElements_cnt, hk]
  apply List.map_congr_left
  intro j hj
  have hj := List.mem_range.mp hj
  rw [lane_okElements k e (by omega), if_pos hj]

/-- An `OK` response depends on the elements inside its count only. -/
theorem okElements_congr {k : Nat} {e e' : Nat → Byte} (h : ∀ j < k, e j = e' j) :
    okElements k e = okElements k e' := by
  simp only [okElements, Rsp.mk.injEq, true_and]
  apply dataOf_congr
  intro j _
  split
  · next hj => exact h j hj
  · rfl

/-- The masked bytes of `ENC` depend on the consumed lanes only. -/
theorem encByte_congr {n : Nat} {b b' : Nat → Byte} (h : ∀ i < n, b i = b' i) : encByte n b = encByte n b' := by
  funext i
  simp only [encByte]
  split
  · next hi => exact h i hi
  · rfl

/-- The slots of `DEC` depend on the consumed lanes only. -/
theorem decSlot_congr {A : Alphabet} {m : Nat} {c c' : Nat → Byte} (h : ∀ k < m, c k = c' k) :
    decSlot A m c = decSlot A m c' := by
  funext k
  simp only [decSlot]
  split
  · next hk => rw [h k hk]
  · rfl

/-- `ENC` depends on the consumed lanes only. -/
theorem encGroup_congr {A : Alphabet} {n : Nat} {b b' : Nat → Byte} (h : ∀ i < n, b i = b' i) :
    encGroup A n b = encGroup A n b' := by
  simp only [encGroup, encValue, encByte_congr h]

/-- `DEC` depends on the consumed lanes only. -/
theorem decGroup_congr {A : Alphabet} {m : Nat} {c c' : Nat → Byte} (h : ∀ k < m, c k = c' k) :
    decGroup A m c = decGroup A m c' := by
  have hv : decValue A m c = decValue A m c' := by funext k; simp only [decValue, decSlot_congr h]
  have hb : decByte A m c = decByte A m c' := by funext i; simp only [decByte, hv]
  have hm : decMisses A m c = decMisses A m c' := by simp only [decMisses, decSlot_congr h]
  rw [decGroup, decGroup, hm, hb]

/-- Some consumed lane misses, said by lanes. -/
theorem decMisses_iff {A : Alphabet} {m : Nat} {c : Nat → Byte} (hm : m ≤ 8) :
    decMisses A m c = true ↔ ∃ k < m, lookup A (c k) = none := by
  simp only [decMisses, List.any_eq_true, List.mem_range, decSlot]
  constructor
  · rintro ⟨k, _, hk⟩
    by_cases h : k < m
    · exact ⟨k, h, by simpa [h] using hk⟩
    · simp [h] at hk
  · rintro ⟨k, hk, h⟩
    exact ⟨k, by omega, by simp [hk, h]⟩

/-- `F` on its domain. -/
theorem F_isSome {n : Nat} : (F n).isSome = true ↔ n ≤ 5 := by
  by_cases h : n ≤ 5
  · interval_cases n <;> simp [F, f, fTable]
  · simp [F, f, fTable, show n ≠ 5 by omega]; omega

/-- `G` on its domain. -/
theorem G_isSome {m : Nat} : (G m).isSome = true ↔ m ≤ 8 := by
  by_cases h : m ≤ 8
  · interval_cases m <;> simp [G, g, gTable]
  · simp [G, g, gTable, show m ≠ 8 by omega]; omega

theorem F_eq_none {n : Nat} (h : 5 < n) : F n = none := by
  have := (@F_isSome n).not.mpr (by omega)
  simpa using this

theorem G_eq_none {m : Nat} (h : 8 < m) : G m = none := by
  have := (@G_isSome m).not.mpr (by omega)
  simpa using this

/-- A symbol count is at most 8. -/
theorem F_le {n k : Nat} (h : F n = some k) : k ≤ 8 := by
  have hn := F_isSome.mp (by rw [h]; rfl)
  interval_cases n <;> simp [F, f, fTable] at h <;> omega

/-- A byte count is at most 5. -/
theorem G_le {m k : Nat} (h : G m = some k) : k ≤ 5 := by
  have hm := G_isSome.mp (by rw [h]; rfl)
  interval_cases m <;> simp [G, g, gTable] at h <;> omega

/-! What each operation answers, by its count. -/

theorem encGroup_ok {A : Alphabet} {n k : Nat} (b : Nat → Byte) (h : F n = some k) :
    encGroup A n b = okElements k fun j => A (encValue n b j) := by simp only [encGroup, h]

theorem encGroup_bad {A : Alphabet} {n : Nat} (b : Nat → Byte) (h : 5 < n) : encGroup A n b = raise .badCount := by
  simp only [encGroup, F_eq_none h]

theorem decGroup_ok {A : Alphabet} {m k : Nat} {c : Nat → Byte} (h : G m = some k) (hc : decMisses A m c = false) :
    decGroup A m c = okElements k (decByte A m c) := by simp [decGroup, h, hc]

theorem decGroup_miss {A : Alphabet} {m : Nat} {c : Nat → Byte} (h : m ≤ 8) (hc : decMisses A m c = true) :
    decGroup A m c = raise .invalidSymbol := by
  obtain ⟨k, hk⟩ := Option.isSome_iff_exists.mp (G_isSome.mpr h)
  simp [decGroup, hk, hc]

theorem decGroup_bad {A : Alphabet} {m : Nat} (c : Nat → Byte) (h : 8 < m) : decGroup A m c = raise .badCount := by
  simp only [decGroup, G_eq_none h]

/-- `ENC` reads at most the lanes its line lists, whatever the count. -/
theorem encGroup_listed {A : Alphabet} {n : Nat} {b b' : Nat → Byte} (h : ∀ i < min n 5, b i = b' i) :
    encGroup A n b = encGroup A n b' := by
  by_cases hn : n ≤ 5
  · exact encGroup_congr (by simpa [hn] using h)
  · rw [encGroup_bad b (by omega), encGroup_bad b' (by omega)]

/-- `DEC` reads at most the lanes its line lists, whatever the count. -/
theorem decGroup_listed {A : Alphabet} {m : Nat} {c c' : Nat → Byte} (h : ∀ k < min m 8, c k = c' k) :
    decGroup A m c = decGroup A m c' := by
  by_cases hm : m ≤ 8
  · exact decGroup_congr (by simpa [hm] using h)
  · rw [decGroup_bad c (by omega), decGroup_bad c' (by omega)]

end Sys2Proof.Machine
end

