-- ==== Sys2Proof/Laws/Groups.lean ====
section
/-! SUPPORT. Cutting a sequence into groups, as a recursion: the form inductions over a sequence use, with what `B32`
answers to the request of one group. -/

namespace Sys2Proof.Machine

/-- A sequence shorter than a group is its own remainder block, or empty. -/
theorem groups_short {k : Nat} {l : List Byte} (h : l.length < k) : groups k l = if l = [] then [] else [l] := by
  have h0 : l.length / k = 0 := Nat.div_eq_of_lt h
  have h1 : l.length % k = l.length := Nat.mod_eq_of_lt h
  simp only [groups, h0, h1]
  cases l <;> simp

/-- The first full group of a sequence, then the groups of the rest. -/
theorem groups_full {k : Nat} {l : List Byte} (hk : 0 < k) (h : k ≤ l.length) :
    groups k l = l.take k :: groups k (l.drop k) := by
  obtain ⟨d, hd⟩ : ∃ d, l.length = d + k := ⟨l.length - k, by omega⟩
  have hdiv : l.length / k = d / k + 1 := by rw [hd, Nat.add_div_right d hk]
  have hmod : l.length % k = d % k := by rw [hd, Nat.add_mod_right]
  have hdl : (l.drop k).length = d := by simp [hd]
  simp only [groups, hdl, hdiv, hmod, List.range_succ_eq_map, List.map_cons, List.map_map, List.cons_append,
    Nat.mul_zero, List.drop_zero, List.drop_drop]
  congr 2
  · apply List.map_congr_left
    intro j _
    simp [Nat.mul_succ, Nat.add_comm]
  · simp [Nat.mul_succ, Nat.add_comm]

/-- Induction over a sequence by groups of `k`: short sequences, then one full group before the rest. -/
theorem groups_induction {k : Nat} (hk : 0 < k) {P : List Byte → Prop} (short : ∀ l, l.length < k → P l)
    (full : ∀ l, k ≤ l.length → P (l.drop k) → P l) (l : List Byte) : P l := by
  induction hn : l.length using Nat.strong_induction_on generalizing l with
  | _ n ih =>
    by_cases h : l.length < k
    · exact short l h
    · exact full l (by omega) (ih (n - k) (by omega) _ (by simp [hn]))

/-- No group is longer than `k`. -/
theorem length_le_of_mem_groups {k : Nat} (hk : 0 < k) (l : List Byte) : ∀ x ∈ groups k l, x.length ≤ k := by
  induction l using groups_induction hk with
  | short l h => rw [groups_short h]; split <;> simp; omega
  | full l h ih => rw [groups_full hk h]; simpa using ih

/-- `B32` on the `ENC` request of a group. -/
theorem b32_encRequest (A : Alphabet) {bs : List Byte} (h : bs.length ≤ 5) :
    b32 A (encode (encRequest bs)) = packRsp (encGroup A bs.length (listed bs)) := by
  have hn : (BitVec.ofNat 4 bs.length).toNat = bs.length := by simp; omega
  simp only [b32, encode, encRequest, reqOp_packReq, reqCnt_packReq, reqData_packReq, if_true, hn]
  rw [encGroup_congr fun i hi => lane_dataOf (listed bs) (by omega)]

/-- `B32` on the `DEC` request of a group. -/
theorem b32_decRequest (A : Alphabet) {cs : List Byte} (h : cs.length ≤ 8) :
    b32 A (encode (decRequest cs)) = packRsp (decGroup A cs.length (listed cs)) := by
  have hn : (BitVec.ofNat 4 cs.length).toNat = cs.length := by simp; omega
  simp only [b32, encode, decRequest, reqOp_packReq, reqCnt_packReq, reqData_packReq, hn,
    show ¬ (0b01#2 = 0b00#2) by decide, if_true, if_false]
  rw [decGroup_congr fun k hk => lane_dataOf (listed cs) (by omega)]

end Sys2Proof.Machine
end

