-- ==== Sys2Proof/Laws/PerInstr.lean ====
section
/-! SUPPORT. The statements made per operation: the family `RowFits`, which says that the word of an operation carries
its row's fixed bits and its count (30_encoding.md R36, R46). -/

namespace Sys2Proof.Laws.RowFits

/-- The row of an operation in the opcode table. -/
def row : Instr → OpRow
  | .enc _ _ => ⟨"ENC", 0x300000000000000000#70, 0x000000000000000000#70⟩
  | .dec _ _ => ⟨"DEC", 0x300000000000000000#70, 0x100000000000000000#70⟩
  | .flen _ => ⟨"FLEN", 0x300000000000000000#70, 0x200000000000000000#70⟩
  | .glen _ => ⟨"GLEN", 0x300000000000000000#70, 0x300000000000000000#70⟩

/-- The count of an operation. -/
def count : Instr → Count
  | .enc n _ => n
  | .dec m _ => m
  | .flen r => r
  | .glen r => r

/-- The word of the operation carries the operation code of its row and its count, and its row is in the table under
its mnemonic. -/
def Statement (i : Instr) : Prop :=
  reqOp (encode i) = reqOp (row i).pattern ∧ reqCnt (encode i) = count i ∧
    (row i).mnemonic = i.mnemonic ∧ row i ∈ opTable

theorem enc (n : Count) (bs : List Byte) : Statement (.enc n bs) := by
  simp [Statement, encode, row, count, opTable, Instr.mnemonic]; decide

theorem dec (m : Count) (cs : List Byte) : Statement (.dec m cs) := by
  simp [Statement, encode, row, count, opTable, Instr.mnemonic]; decide

theorem flen (r : Count) : Statement (.flen r) := by
  simp [Statement, encode, row, count, opTable, Instr.mnemonic]; decide

theorem glen (r : Count) : Statement (.glen r) := by
  simp [Statement, encode, row, count, opTable, Instr.mnemonic]; decide

end Sys2Proof.Laws.RowFits
end

