-- ==== Sys2Proof/Laws/Step.lean ====
section
/-! SUPPORT. What one execution and one step can do, said once. -/

namespace Sys2Proof.Machine

/-- Every execution answers on the port. -/
theorem exec_answers (i : Instr) (s : State) : ∃ r, exec i s = answer r s := by
  cases i <;> exact ⟨_, rfl⟩

/-- Everything `exec` can do: a response stands on the port, and nothing else changes. -/
theorem exec_cases {i : Instr} {s t : State} (h : exec i s = .next t) :
    ∃ r, t = s.setRsp (packRsp r) := by
  obtain ⟨r, hr⟩ := exec_answers i s
  exact ⟨r, answer_next.mp (hr ▸ h)⟩

theorem step_none {s : State} (h : s.req = none) : step s = .refused .noRequest := by
  simp [step, h]

theorem step_some {s : State} {q : ReqWord} (h : s.req = some q) : step s = exec (decodeWord q) s := by
  simp [step, h]

/-- Everything a step can do: a request is driven, and a response stands on the port. -/
theorem step_cases {s t : State} (h : step s = .next t) :
    ∃ q r, s.req = some q ∧ t = s.setRsp (packRsp r) := by
  cases hi : s.req with
  | none => simp [step_none hi] at h
  | some q =>
    obtain ⟨r, hr⟩ := exec_cases (step_some hi ▸ h)
    exact ⟨q, r, rfl, hr⟩

/-- A transaction runs the operation the request decodes to. -/
theorem present_eq (s : State) (q : ReqWord) : present s q = exec (decodeWord q) (s.drive (some q)) := rfl

@[simp] theorem blockStep_fst (A : Alphabet) (u : BlockState) (q : ReqWord) : (blockStep A u q).1 = u := rfl
@[simp] theorem blockStep_snd (A : Alphabet) (u : BlockState) (q : ReqWord) : (blockStep A u q).2 = b32 A q := rfl
@[simp] theorem blockRun_nil (A : Alphabet) (u : BlockState) : blockRun A u [] = (u, []) := rfl
@[simp] theorem blockRun_cons (A : Alphabet) (u : BlockState) (q : ReqWord) (qs : List ReqWord) :
    blockRun A u (q :: qs) = ((blockRun A u qs).1, b32 A q :: (blockRun A u qs).2) := rfl

/-- R18's step over a list: the state is the one it began with, each response that of its own request. -/
theorem blockRun_eq (A : Alphabet) (u : BlockState) (qs : List ReqWord) :
    blockRun A u qs = (u, qs.map (b32 A)) := by
  induction qs with
  | nil => rfl
  | cons q qs ih => rw [blockRun_cons, ih, List.map_cons]

@[simp] theorem session_nil (s : State) : session [] s = .next s := rfl
@[simp] theorem responses_nil (s : State) : responses [] s = [] := rfl

/-- A session whose first transaction answers goes on from there. -/
theorem session_cons {s t : State} {q : ReqWord} (qs : List ReqWord) (h : present s q = .next t) :
    session (q :: qs) s = session qs t := by
  simp only [session, h]

/-- The host reads the first response, then those of the rest. -/
theorem responses_cons {s t : State} {q : ReqWord} (qs : List ReqWord) (h : present s q = .next t) :
    responses (q :: qs) s = t.rsp.toList ++ responses qs t := by
  simp only [responses, h]

/-- A run of no steps. -/
theorem core_run_zero (s : State) : Host.Core.run core 0 s = .next s := rfl

/-- A run whose first step answers a next state goes on from there. -/
theorem core_run_succ {s t : State} (k : Nat) (h : step s = .next t) :
    Host.Core.run core (k + 1) s = Host.Core.run core k t := by
  have h' : core.step s = Host.Outcome.next (σ := core.State) t := h
  simp only [Host.Core.run, h']

end Sys2Proof.Machine
end

