-- ==== Sys2Proof/Tests/Slice0.lean ====
section
/-! SUPPORT. The model's own tests, with words and results the spec prints (95_test_vectors.md, 42_decoder.md section 4,
43_encoder.md section 4), and for each statement with hypotheses a witness that meets them together. -/

namespace Sys2Proof.Tests

open Sys2Proof.Machine

/-! ## WellFormed refuses ill-formed terms (R47) -/

theorem test_wf_refuses_enc_short : (Instr.enc 3#4 [0x01#8, 0x02#8]).wf = false := by decide
theorem test_wf_refuses_enc_long : (Instr.enc 15#4 (List.replicate 6 0x00#8)).wf = false := by decide
theorem test_wf_refuses_dec_short : (Instr.dec 1#4 []).wf = false := by decide
theorem test_wf_refuses_dec_long : (Instr.dec 9#4 (List.replicate 9 0x79#8)).wf = false := by decide

/-! ## Decoding: words written out bit by bit from the rows of R46 -/

/-- `ENC 2, FF 01`: `00nnnnaaaaaaaabbbbbbbb...`, with ones in the ignored lanes. -/
theorem test_decode_enc : decodeWord
    (0b00#2 ++ 0b0010#4 ++ 0b11111111#8 ++ 0b00000001#8 ++ 0b11111111#8 ++ 0b11111111#8 ++ 0b11111111#8 ++
      0b11111111#8 ++ 0b11111111#8 ++ 0b11111111#8) = .enc 2#4 [0xFF#8, 0x01#8] := by decide

/-- `DEC 3, "y9y"`: `01nnnnaaaaaaaabbbbbbbbcccccccc...`. -/
theorem test_decode_dec : decodeWord
    (0b01#2 ++ 0b0011#4 ++ 0b01111001#8 ++ 0b00111001#8 ++ 0b01111001#8 ++ 0b00110000#8 ++ 0b00000000#8 ++
      0b00000000#8 ++ 0b00000000#8 ++ 0b00110000#8) = .dec 3#4 [0x79#8, 0x39#8, 0x79#8] := by decide

/-- `FLEN 4`: `10nnnn---...`. -/
theorem test_decode_flen : decodeWord (0b10#2 ++ 0b0100#4 ++ 0xFFFFFFFFFFFFFFFF#64) = .flen 4#4 := by decide

/-- `GLEN 7`: `11nnnn---...`. -/
theorem test_decode_glen : decodeWord (0b11#2 ++ 0b0111#4 ++ 0x0000000000000000#64) = .glen 7#4 := by decide

/-- A table word of 72 bits, one that is no request word, and one shorter than the request. -/
theorem test_decode_table_word :
    decodeTableWord 72 0x113900000000000000 = some (.dec 1#4 [0x39#8]) ∧
    decodeTableWord 72 0x400000000000000000 = none ∧ decodeTableWord 8 0xFF = some (.enc 0#4 []) := by decide

theorem test_raw_form_rejects :
    decodeBytes [0x40#8, 0#8, 0#8, 0#8, 0#8, 0#8, 0#8, 0#8, 0#8] = .error .topDigit ∧
    decodeBytes [0x00#8, 0#8] = .error .notNineBytes := by decide

/-- R47's example: `ENC 5, 00 00 00 00 00` assembles to `0x05000...`; R48's `ENCODE` of six bytes to two requests. -/
theorem test_assemble :
    assemble (.enc 5 [0x00#8, 0x00#8, 0x00#8, 0x00#8, 0x00#8]) = some [0x050000000000000000#70] ∧
    assemble (.decText 2 ['y', '9']) = some [0x127939000000000000#70] ∧
    assemble (.encode [0x48#8, 0x65#8, 0x6C#8, 0x6C#8, 0x6F#8, 0x21#8]) =
      some [0x0548656C6C6F000000#70, 0x012100000000000000#70] ∧
    assemble (.decText 2 ['y']) = none ∧ assemble (.req (2 ^ 70)) = none := by decide

/-! ## One step on a state that holds one request -/

/-- The response word on the port after a step. -/
def rspAfter (s : State) : Option RspWord :=
  match step s with
  | .next t => t.rsp
  | .fault _ => none
  | .refused _ => none

/-- A state of the model, from its port. -/
def stateOf (q : Option ReqWord) (w : Option RspWord) : State := { req := q, rsp := w, block := () }

/-- A port on which a request is driven and no response stands yet: no instant of B32 (R19), so that a test sees the
response that the step itself puts there. -/
def presenting (q : ReqWord) : State := stateOf (some q) none

/-- V-E18. -/
theorem test_enc_hello : rspAfter (presenting 0x0548656C6C6F000000#70) = some 0x086A62317361356478#70 := by decide
/-- V-E12: the ignored lanes hold FF. -/
theorem test_enc_ignores_lanes : rspAfter (presenting 0x01FFFFFFFFFFFFFFFF#70) = some 0x023968000000000000#70 := by
  decide
/-- V-D26: seven symbols. -/
theorem test_dec_seven : rspAfter (presenting 0x173534733537356100#70) = some 0x05DEADBEEF00000000#70 := by decide
/-- V-D31. -/
theorem test_dec_last_lane_misses : rspAfter (presenting 0x187979797979797930#70) = some 0x100000000000000000#70 := by
  decide
/-- V-T32. -/
theorem test_flen_three : rspAfter (presenting 0x23FFFFFFFFFFFFFFFF#70) = some 0x050000000000000000#70 := by decide
/-- V-T05. -/
theorem test_flen_five_is_bad : rspAfter (presenting 0x250000000000000000#70) = some 0x200000000000000000#70 := by decide
/-- V-T22. -/
theorem test_glen_six : rspAfter (presenting 0x360000000000000000#70) = some 0x040000000000000000#70 := by decide
/-- V-T24. -/
theorem test_glen_eight_is_bad : rspAfter (presenting 0x380000000000000000#70) = some 0x200000000000000000#70 := by
  decide

/-- V-S12, V-S13 and V-S19: sequences. -/
theorem test_encode_hello : encodeSeq alphabet [0x48#8, 0x65#8, 0x6C#8, 0x6C#8, 0x6F#8, 0x21#8] =
    [0x6A#8, 0x62#8, 0x31#8, 0x73#8, 0x61#8, 0x35#8, 0x64#8, 0x78#8, 0x72#8, 0x72#8] := by decide
theorem test_decode_hello : decodeSeq alphabet
    [0x6A#8, 0x62#8, 0x31#8, 0x73#8, 0x61#8, 0x35#8, 0x64#8, 0x78#8, 0x72#8, 0x72#8] =
    .success [0x48#8, 0x65#8, 0x6C#8, 0x6C#8, 0x6F#8, 0x21#8, 0x00#8] := by decide
theorem test_decode_fails_in_second_group : decodeSeq alphabet (List.replicate 8 0x79#8 ++ [0x30#8]) = .failure := by
  decide

/-! ## Witnesses: for each statement with hypotheses, a state and operands that meet them together -/

/-- The symbols `"y9"` and a code outside every alphabet, as used below. -/
def y9 : List Byte := [0x79#8, 0x39#8]

/-- StepStopsOnlyWithoutRequest: a state with a request and one without. -/
theorem witness_step_stops : (presenting 0x350000000000000000#70).req ≠ none ∧ State.reset.req = none := by decide

/-- StepRunsTheDecodedRequest, StepAnswersB32, StepIsTheStepOverUnit, HeldRequestKeepsItsResponse: a driven request,
with the response of another one on the port. -/
theorem witness_driven :
    0 < 2 ∧ (stateOf (some 0x1879626E6472666738#70) (some 0#70)).req = some 0x1879626E6472666738#70 := by decide

/-- RunAnswersEachRequestOnItsOwn: a list with a last request, the one before it failing. -/
theorem witness_run :
    [0x250000000000000000#70, (0x240000000000000000#70 : ReqWord)].getLast? = some 0x240000000000000000#70 := by decide

/-- SameRequestGivesSameResponse: two different states with the same request. -/
theorem witness_same_request :
    (stateOf (some 0x360000000000000000#70) none).req = some 0x360000000000000000#70 ∧
    (stateOf (some 0x360000000000000000#70) (some 0#70)).req = some 0x360000000000000000#70 := by decide

/-- EveryStepKeepsThePortConsistent: a consistent state that steps. -/
theorem witness_port :
    (State.reset.drive (some 0x330000000000000000#70)).PortInv ∧
    step (State.reset.drive (some 0x330000000000000000#70)) =
      .next (stateOf (some 0x330000000000000000#70) (some 0x020000000000000000#70)) := ⟨rfl, rfl⟩

/-- DecodeOfEncodeIsIdentity, RawFormsDecodeOrAreRejected: well-formed terms at the ends of the counts' ranges. -/
theorem witness_well_formed :
    (Instr.enc 0#4 []).WellFormed ∧ (Instr.enc 5#4 (List.replicate 5 0xFF#8)).WellFormed ∧
    (Instr.enc 15#4 (List.replicate 5 0x00#8)).WellFormed ∧ (Instr.dec 8#4 (List.replicate 8 0x39#8)).WellFormed ∧
    (Instr.dec 15#4 (List.replicate 8 0x30#8)).WellFormed ∧ (Instr.flen 15#4).WellFormed := by decide

/-- RawFormsDecodeOrAreRejected: the first byte at both sides of the bound, and a wrong number of bytes. -/
theorem witness_raw_forms :
    (0x3F#8 < 0x40#8) ∧ (0x3F#8 ≤ 0x3F#8) ∧ (List.replicate 8 0x00#8).length = 8 ∧ ([] : List Byte).length ≠ 9 := by
  decide

/-- PlacedTableWordRunsNext: the largest request word. -/
theorem witness_placed_word : 0x3FFFFFFFFFFFFFFFFF % 2 ^ 72 < 2 ^ 70 := by decide

/-- EncAnswersTheSymbolsOfItsBytes: each clause at its bound, count 5 and count 6. -/
theorem witness_enc :
    reqOp 0x05FFFFFFFFFF000000#70 = 0b00#2 ∧ (reqCnt 0x05FFFFFFFFFF000000#70).toNat ≤ 5 ∧
    reqOp 0x060102030405000000#70 = 0b00#2 ∧ 5 < (reqCnt 0x060102030405000000#70).toNat := by decide

/-- DecAnswersTheBytesOfItsSymbols: each clause at its bound: count 9; count 8 with a miss in the last lane; count 2
with both symbols found and the other values 0. -/
theorem witness_dec :
    (8 < (reqCnt 0x197979797979797979#70).toNat) ∧
    ((reqCnt 0x187979797979797930#70).toNat ≤ 8 ∧
      ∃ k < 8, lookup alphabet (lane (reqData 0x187979797979797930#70) k) = none) ∧
    (∀ k < 2, lookup alphabet (listed y9 k) = some (if k = 1 then 31#5 else 0#5)) := by decide

/-- FlenAnswersTheTableEntry, GlenAnswersTheTableEntry: each clause at its bound. -/
theorem witness_sizes :
    (reqOp 0x240000000000000000#70 = 0b10#2 ∧ (reqCnt 0x240000000000000000#70).toNat ≤ 4) ∧
    (reqOp 0x250000000000000000#70 = 0b10#2 ∧ 4 < (reqCnt 0x250000000000000000#70).toNat) ∧
    (reqOp 0x370000000000000000#70 = 0b11#2 ∧ (reqCnt 0x370000000000000000#70).toNat ≤ 7) ∧
    (reqOp 0x380000000000000000#70 = 0b11#2 ∧ 7 < (reqCnt 0x380000000000000000#70).toNat) := by decide

/-- IllegalCountsAnswerBadCount: the least illegal count of each operation, and an empty group. -/
theorem witness_illegal_counts :
    illegalCount 0x060000000000000000#70 ∧ illegalCount 0x190000000000000000#70 ∧
    illegalCount 0x250000000000000000#70 ∧ illegalCount 0x380000000000000000#70 ∧
    (reqOp 0x103030303030303030#70 = 0b01#2 ∧ reqCnt 0x103030303030303030#70 = 0#4) := by decide

/-- InvalidSymbolExactlyOnAMissingSymbol: a request with that status. -/
theorem witness_invalid_symbol : rspStatus (b32 alphabet 0x113000000000000000#70) = 0b01#2 := by decide

/-- RaisedErrorsLeaveNothingBehind: an illegal count, a missing symbol, and a failed step. -/
theorem witness_raise :
    countLegal (.flen 5#4) = false ∧
    (countLegal (.dec 1#4 [0x30#8]) = true ∧ symbolMissing alphabet (.dec 1#4 [0x30#8]) = true) ∧
    step (presenting 0x250000000000000000#70) =
      .next (stateOf (some 0x250000000000000000#70) (some badCountWord)) := ⟨rfl, ⟨rfl, by decide⟩, rfl⟩

/-- UnusedResponseBitsAreZero, EveryResponseIsReadable: a response of each status, and each operation. -/
theorem witness_statuses :
    rspStatus (b32 alphabet 0x0548656C6C6F000000#70) = 0b00#2 ∧ reqOp 0x0548656C6C6F000000#70 = 0b00#2 ∧
    rspStatus (b32 alphabet 0x12793D000000000000#70) = 0b01#2 ∧ reqOp 0x12793D000000000000#70 = 0b01#2 ∧
    rspStatus (b32 alphabet 0x250000000000000000#70) = 0b10#2 ∧ reqOp 0x250000000000000000#70 = 0b10#2 ∧
    reqOp 0x370000000000000000#70 = 0b11#2 ∧
    ((rspCnt (b32 alphabet 0x01FF00000000000000#70)).toNat ≤ 2 ∧ (2 : Nat) < 8) := by decide

/-- IgnoredRequestBitsChangeNothing: two different words of `ENC 1`, and two of `DEC 2`. -/
theorem witness_ignored_bits :
    SameButIgnored 0x01FF00000000000000#70 0x01FFFFFFFFFFFFFFFF#70 ∧
    SameButIgnored 0x127939000000000000#70 0x127939303030303030#70 := by
  unfold SameButIgnored
  decide

/-- LookupFindsTheUniquePosition and every other statement about admissible alphabets. -/
theorem witness_admissible : zbase32.Admissible := zbase32_admissible

/-- CodesOutsideEveryAlphabet: the codes where its clauses meet the digits and letters. -/
theorem witness_outside_codes :
    (0x41#8 ≤ 0x41#8 ∧ 0x41#8 ≤ 0x5A#8) ∧ 0x2F#8 < 0x30#8 ∧ (0x3A#8 ≤ 0x3A#8 ∧ 0x60#8 ≤ 0x60#8) ∧ 0x7B#8 ≤ 0x7B#8 := by
  decide

/-- RemainderTablesAreCeilings: the least index outside each table; TableSlackAndComposition: entries of the tables. -/
theorem witness_tables :
    (5 ≤ 5 ∧ 8 ≤ 8) ∧ f 4 = some 7 ∧ g 7 = some 5 ∧ F 5 = some 8 ∧ G 8 = some 5 ∧ F 1 = some 2 ∧ G 1 = some 1 := by
  decide

/-- DroppedDecodeBytesAreZero, SuppressedEncodeValuesAreZero: a remainder block with something dropped. -/
theorem witness_dropped :
    (G 1 = some 1 ∧ 1 ≤ 4 ∧ 4 < 5 ∧ 0 < 1) ∧ (F 1 = some 2 ∧ 2 ≤ 7 ∧ 7 < 8 ∧ 0 < 1) := by decide

/-- WindowBitsKeepTheirPlace, RegroupToBytesBySlices, RegroupToValuesBySlices: the last bit, byte and value. -/
theorem witness_window : 39 < 40 ∧ 4 < 5 ∧ 7 < 8 := by decide

/-- EncodeGroupLosesNoBit: two groups that agree in the consumed lane and differ in an ignored one. -/
theorem witness_no_loss :
    1 ≤ 5 ∧ encGroup zbase32 1 (listed [0x01#8, 0xFF#8]) = encGroup zbase32 1 (listed [0x01#8]) := by decide

/-- FullGroupsAreInverse: five bytes, and eight symbols. -/
theorem witness_full_groups :
    (List.replicate 5 0xA5#8).length = 5 ∧ (List.replicate 4 y9).flatten.length = 8 ∧
    ∀ c ∈ (List.replicate 4 y9).flatten, ∃ v, alphabet v = c := by decide

/-- GroupsCutTheSequence: a sequence of one full group and a remainder block. -/
theorem witness_groups : 0 < 5 ∧ groups 5 [1#8, 2#8, 3#8, 4#8, 5#8, 6#8] = [[1#8, 2#8, 3#8, 4#8, 5#8], [6#8]] := by
  decide

/-- EncodeNeverFails, DecodeFailsExactlyOffTheAlphabet: a request of each expansion. -/
theorem witness_requests :
    0x01FF00000000000000#70 ∈ encodeRequests [0xFF#8] ∧ 0x127939000000000000#70 ∈ decodeRequests y9 := by decide

/-- DecodeFailsExactlyOffTheAlphabet: a text inside the alphabet, one with a character outside it, and a host that has
seen the failing response. -/
theorem witness_texts :
    (∀ c ∈ y9, ∃ v, alphabet v = c) ∧ (∃ c ∈ y9 ++ [0x30#8], ∀ v, alphabet v ≠ c) ∧
    ∃ w ∈ ((decodeRequests [0x30#8]).map (b32 alphabet)).take 1, rspStatus w = 0b01#2 :=
  ⟨by decide, by decide, invalidSymbolWord, List.mem_singleton.mpr (by decide), by decide⟩

/-- DecodeLengthLaw, SymbolsComeBackFromTheirDecoding, ConcatenationAtAGroupBoundary: decodings that succeed. -/
theorem witness_decodings :
    decodeSeq alphabet y9 = .success [0x07#8, 0xC0#8] ∧ (List.replicate 8 0x39#8).length % 8 = 0 ∧
    decodeSeq alphabet (List.replicate 8 0x39#8) = .success (List.replicate 5 0xFF#8) ∧
    (List.replicate 5 0x00#8 : List Byte).length % 5 = 0 := by decide

/-- EncodeLengthLaw, DecodeLengthLaw: two lengths in order. -/
theorem witness_lengths : 4 < 5 ∧ 7 ≤ 8 := by decide

/-- EncodeEmitsOnlySymbols: a character of an encoding. -/
theorem witness_emitted : 0x39#8 ∈ encodeSeq alphabet [0xFF#8] := by decide

/-- EncodeIsInjective: two equal encodings. -/
theorem witness_injective : encodeSeq alphabet [0x01#8] = encodeSeq alphabet [0x01#8] := rfl

/-- AssembledLinesDecodeBack: counted lines at the bounds of the counts, and lines that are none. -/
theorem witness_lines :
    (15 < 16 ∧ (List.replicate 5 0x00#8).length = min 15 5) ∧ (8 < 16 ∧ (List.replicate 8 0x79#8).length = min 8 8) ∧
    (16 ≥ 16 ∨ ([] : List Byte).length ≠ min 16 5) ∧ (1 ≥ 16 ∨ ([] : List Byte).length ≠ min 1 8) := by decide

/-- AssembledLinesDecodeBack: texts at the bounds of the counts and of ASCII, and texts that are none. -/
theorem witness_text_lines :
    (15 < 16 ∧ (List.replicate 8 'y').length = min 15 8) ∧ (∀ c ∈ ['y', '~'], c.toNat < 128) ∧
    (16 ≥ 16 ∨ ([] : List Char).length ≠ min 16 8) ∧ (∃ c ∈ ['y', '\u0080'], 128 ≤ c.toNat) :=
  ⟨by decide, by simp, .inl (Nat.le_refl 16), '\u0080', .tail _ (.head _), Nat.le_refl 128⟩

/-- AssembledLinesDecodeBack: raw lines at both sides of the bound. -/
theorem witness_raw_lines : 2 ^ 70 - 1 < 2 ^ 70 ∧ 2 ^ 70 ≥ 2 ^ 70 := by norm_num

end Sys2Proof.Tests
end

section
/-! Where the fields and the lanes of the two words stand: bit `j` of each field of a request (R35), lane `i` as a slice
of the data field (R20), and the statement of both. -/

namespace Sys2Proof

/-- Bit `j` of `REQ.op`, which is bits 69:68 (R35). -/
theorem getLsbD_reqOp (q : ReqWord) (j : Nat) : (reqOp q).getLsbD j = (decide (j < 2) && q.getLsbD (68 + j)) :=
  BitVec.getLsbD_extractLsb' ..

/-- Bit `j` of `REQ.cnt`, which is bits 67:64 (R35). -/
theorem getLsbD_reqCnt (q : ReqWord) (j : Nat) : (reqCnt q).getLsbD j = (decide (j < 4) && q.getLsbD (64 + j)) :=
  BitVec.getLsbD_extractLsb' ..

/-- Bit `j` of `REQ.data`, which is bits 63:0 (R35). -/
theorem getLsbD_reqData (q : ReqWord) (j : Nat) : (reqData q).getLsbD j = (decide (j < 64) && q.getLsbD j) := by
  simp [reqData, BitVec.getLsbD_extractLsb']

/-- Lane `i` is bits `[63-8*i : 56-8*i]` (R20); the cast is between two spellings of the width 8. -/
theorem lane_eq_extractLsb (d : Data) {i : Nat} (h : i < 8) :
    lane d i = (d.extractLsb (63 - 8 * i) (56 - 8 * i)).cast (by omega) := by
  apply BitVec.eq_of_getLsbD_eq
  intro j hj
  rw [getLsbD_lane, BitVec.getLsbD_cast, BitVec.getLsbD_extractLsb, show 63 - 8 * i - (56 - 8 * i) + 1 = 8 by omega]

end Sys2Proof

namespace Sys2Proof.Machine

/-- The fields of a word, read bit by bit. The format of `RSP` (R38) is that of `REQ` (R35) under other names. -/
theorem getLsbD_fields (w : BitVec 70) (j : Nat) :
    (j < 2 → (reqOp w).getLsbD j = w.getLsbD (68 + j)) ∧ (j < 4 → (reqCnt w).getLsbD j = w.getLsbD (64 + j)) ∧
    (j < 64 → (reqData w).getLsbD j = w.getLsbD j) := by
  refine ⟨fun h => ?_, fun h => ?_, fun h => ?_⟩
  · rw [getLsbD_reqOp, decide_eq_true h, Bool.true_and]
  · rw [getLsbD_reqCnt, decide_eq_true h, Bool.true_and]
  · rw [getLsbD_reqData, decide_eq_true h, Bool.true_and]

/-- Settles O18: the fields of both words bit by bit, and R20's slice at each of the eight lanes. -/
theorem fieldsAndLanesOfTheWords : Obligations.FieldsAndLanesOfTheWords := by
  refine ⟨getLsbD_fields, getLsbD_fields, fun d => ?_⟩
  have slice {i : Nat} (h : i < 8) := lane_eq_extractLsb d h
  exact ⟨slice (i := 0) (by decide), slice (i := 1) (by decide), slice (i := 2) (by decide),
    slice (i := 3) (by decide), slice (i := 4) (by decide), slice (i := 5) (by decide),
    slice (i := 6) (by decide), slice (i := 7) (by decide)⟩

end Sys2Proof.Machine
end

section
/-! What `B32` answers to a request word, said once: an equation per operation code, the answers there are, and the
statements of 30_encoding.md about the response word: illegal counts (R44), zero fill (R43), readable status (R39) and
ignored request bits (R42). -/

namespace Sys2Proof

/-- `REQ.op` takes each of its four values (R36). -/
theorem reqOp_cases (q : ReqWord) :
    reqOp q = 0b00#2 ∨ reqOp q = 0b01#2 ∨ reqOp q = 0b10#2 ∨ reqOp q = 0b11#2 := by
  generalize reqOp q = o
  decide +revert

@[simp] theorem lane_zero (i : Nat) : lane 0#64 i = 0x00#8 := by simp [lane]

end Sys2Proof

namespace Sys2Proof.Machine

/-! `B32` by operation code (R40). -/

theorem b32_enc {q : ReqWord} (A : Alphabet) (h : reqOp q = 0b00#2) :
    b32 A q = packRsp (encGroup A (reqCnt q).toNat (lane (reqData q))) := by simp [b32, h]

theorem b32_dec {q : ReqWord} (A : Alphabet) (h : reqOp q = 0b01#2) :
    b32 A q = packRsp (decGroup A (reqCnt q).toNat (lane (reqData q))) := by simp [b32, h]

theorem b32_flen {q : ReqWord} (A : Alphabet) (h : reqOp q = 0b10#2) :
    b32 A q = packRsp (flen (reqCnt q).toNat) := by simp [b32, h]

theorem b32_glen {q : ReqWord} (A : Alphabet) (h : reqOp q = 0b11#2) :
    b32 A q = packRsp (glen (reqCnt q).toNat) := by simp [b32, h]

/-! Illegal counts by operation code (R37). -/

theorem illegalCount_enc {q : ReqWord} (h : reqOp q = 0b00#2) : illegalCount q ↔ 6 ≤ (reqCnt q).toNat := by
  simp [illegalCount, h]

theorem illegalCount_dec {q : ReqWord} (h : reqOp q = 0b01#2) : illegalCount q ↔ 9 ≤ (reqCnt q).toNat := by
  simp [illegalCount, h]

theorem illegalCount_flen {q : ReqWord} (h : reqOp q = 0b10#2) : illegalCount q ↔ 5 ≤ (reqCnt q).toNat := by
  simp [illegalCount, h]

theorem illegalCount_glen {q : ReqWord} (h : reqOp q = 0b11#2) : illegalCount q ↔ 8 ≤ (reqCnt q).toNat := by
  simp [illegalCount, h]

/-! The table operations by their index (R63, R64). -/

theorem f_eq_none {r : Nat} : f r = none ↔ 5 ≤ r := by simp [f, fTable]

theorem g_eq_none {r : Nat} : g r = none ↔ 8 ≤ r := by simp [g, gTable]

theorem flen_ok {r k : Nat} (h : f r = some k) : flen r = okSize k := by simp only [flen, h]

theorem flen_bad {r : Nat} (h : f r = none) : flen r = raise .badCount := by simp only [flen, h]

theorem glen_ok {r k : Nat} (h : g r = some k) : glen r = okSize k := by simp only [glen, h]

theorem glen_bad {r : Nat} (h : g r = none) : glen r = raise .badCount := by simp only [glen, h]

/-- The responses `B32` has for a request, each with the condition under which it is the one given: the two errors, the
elements of `ENC` and of `DEC`, and the sizes of `FLEN` and of `GLEN` (R40). -/
inductive Answers (A : Alphabet) (q : ReqWord) : Rsp → Prop
  | badCount (illegal : illegalCount q) : Answers A q (raise .badCount)
  | invalidSymbol (legal : ¬ illegalCount q) (op : reqOp q = 0b01#2)
      (miss : decMisses A (reqCnt q).toNat (lane (reqData q)) = true) : Answers A q (raise .invalidSymbol)
  | symbols {k : Nat} (legal : ¬ illegalCount q) (op : reqOp q = 0b00#2) (size : F (reqCnt q).toNat = some k) :
      Answers A q (okElements k fun j => A (encValue (reqCnt q).toNat (lane (reqData q)) j))
  | bytes {k : Nat} (legal : ¬ illegalCount q) (op : reqOp q = 0b01#2) (size : G (reqCnt q).toNat = some k)
      (found : decMisses A (reqCnt q).toNat (lane (reqData q)) = false) :
      Answers A q (okElements k (decByte A (reqCnt q).toNat (lane (reqData q))))
  | encSize {k : Nat} (legal : ¬ illegalCount q) (op : reqOp q = 0b10#2) (size : f (reqCnt q).toNat = some k) :
      Answers A q (okSize k)
  | decSize {k : Nat} (legal : ¬ illegalCount q) (op : reqOp q = 0b11#2) (size : g (reqCnt q).toNat = some k) :
      Answers A q (okSize k)

theorem answers_encGroup {q : ReqWord} (A : Alphabet) (op : reqOp q = 0b00#2) :
    Answers A q (encGroup A (reqCnt q).toNat (lane (reqData q))) := by
  by_cases illegal : illegalCount q
  · rw [encGroup_bad _ ((illegalCount_enc op).mp illegal)]
    exact .badCount illegal
  · have hn : (reqCnt q).toNat ≤ 5 := by rw [illegalCount_enc op] at illegal; omega
    obtain ⟨k, size⟩ := Option.isSome_iff_exists.mp (F_isSome.mpr hn)
    rw [encGroup_ok _ size]
    exact .symbols illegal op size

theorem answers_decGroup {q : ReqWord} (A : Alphabet) (op : reqOp q = 0b01#2) :
    Answers A q (decGroup A (reqCnt q).toNat (lane (reqData q))) := by
  by_cases illegal : illegalCount q
  · rw [decGroup_bad _ ((illegalCount_dec op).mp illegal)]
    exact .badCount illegal
  · have hm : (reqCnt q).toNat ≤ 8 := by rw [illegalCount_dec op] at illegal; omega
    obtain ⟨k, size⟩ := Option.isSome_iff_exists.mp (G_isSome.mpr hm)
    cases hc : decMisses A (reqCnt q).toNat (lane (reqData q)) with
    | true =>
      rw [decGroup_miss hm hc]
      exact .invalidSymbol illegal op hc
    | false =>
      rw [decGroup_ok size hc]
      exact .bytes illegal op size hc

theorem answers_flen {q : ReqWord} (A : Alphabet) (op : reqOp q = 0b10#2) :
    Answers A q (flen (reqCnt q).toNat) := by
  cases size : f (reqCnt q).toNat with
  | none =>
    rw [flen_bad size]
    exact .badCount ((illegalCount_flen op).mpr (f_eq_none.mp size))
  | some k =>
    rw [flen_ok size]
    refine .encSize (fun illegal => ?_) op size
    simp [f_eq_none.mpr ((illegalCount_flen op).mp illegal)] at size

theorem answers_glen {q : ReqWord} (A : Alphabet) (op : reqOp q = 0b11#2) :
    Answers A q (glen (reqCnt q).toNat) := by
  cases size : g (reqCnt q).toNat with
  | none =>
    rw [glen_bad size]
    exact .badCount ((illegalCount_glen op).mpr (g_eq_none.mp size))
  | some k =>
    rw [glen_ok size]
    refine .decSize (fun illegal => ?_) op size
    simp [g_eq_none.mpr ((illegalCount_glen op).mp illegal)] at size

/-- Everything `B32` can do: it gives one of the answers to its request. -/
theorem b32_answers (A : Alphabet) (q : ReqWord) : ∃ r, b32 A q = packRsp r ∧ Answers A q r := by
  obtain op | op | op | op := reqOp_cases q
  · exact ⟨_, b32_enc A op, answers_encGroup A op⟩
  · exact ⟨_, b32_dec A op, answers_decGroup A op⟩
  · exact ⟨_, b32_flen A op, answers_flen A op⟩
  · exact ⟨_, b32_glen A op, answers_glen A op⟩

/-! ## Illegal counts (R44) -/

theorem packRsp_raise_badCount : packRsp (raise .badCount) = badCountWord := rfl

/-- The status of an answer is `BadCount` exactly where the count is illegal. -/
theorem Answers.status_eq_badCount {A : Alphabet} {q : ReqWord} {r : Rsp} (h : Answers A q r) :
    r.status = 0b10#2 ↔ illegalCount q := by
  cases h with
  | badCount illegal => exact iff_of_true rfl illegal
  | invalidSymbol legal => exact iff_of_false (by decide) legal
  | symbols legal | bytes legal | encSize legal | decSize legal => exact iff_of_false (by simp [okCode]) legal

/-- A request with an illegal count has no answer but `BadCount`. -/
theorem Answers.eq_badCount {A : Alphabet} {q : ReqWord} {r : Rsp} (h : Answers A q r) (illegal : illegalCount q) :
    r = raise .badCount := by
  cases h with
  | badCount => rfl
  | invalidSymbol legal | symbols legal | bytes legal | encSize legal | decSize legal => exact absurd illegal legal

/-- No elements: the whole response word is 0 (R78, R91). -/
theorem packRsp_okElements_zero (e : Nat → Byte) : packRsp (okElements 0 e) = 0#70 := by
  rw [okElements_congr (e' := fun _ => 0x00#8) (by simp)]
  rfl

theorem encGroup_empty (A : Alphabet) (b : Nat → Byte) : packRsp (encGroup A 0 b) = 0#70 := by
  rw [encGroup_ok b (k := 0) rfl, packRsp_okElements_zero]

theorem decGroup_empty (A : Alphabet) (c : Nat → Byte) : packRsp (decGroup A 0 c) = 0#70 := by
  have found : decMisses A 0 c = false := by simp [decMisses, decSlot]
  rw [decGroup_ok (k := 0) rfl found, packRsp_okElements_zero]

/-- Settles O24: by the answers there are, and the empty groups of `ENC` and `DEC`. -/
theorem illegalCountsAnswerBadCount : Obligations.IllegalCountsAnswerBadCount := by
  refine ⟨fun A q => ?_, fun A q illegal => ?_, fun A q op cnt => ?_⟩
  · obtain ⟨r, hr, h⟩ := b32_answers A q
    rw [hr, rspStatus_packRsp, h.status_eq_badCount]
  · obtain ⟨r, hr, h⟩ := b32_answers A q
    rw [hr, h.eq_badCount illegal, packRsp_raise_badCount]
  · have cnt0 : (reqCnt q).toNat = 0 := by rw [cnt]; rfl
    obtain op | op := op
    · rw [b32_enc A op, cnt0, encGroup_empty]
    · rw [b32_dec A op, cnt0, decGroup_empty]

/-! ## Zero fill (R43) -/

/-- The count field of an `OK` response holds the number of its elements. -/
theorem okElements_cnt_toNat {k : Nat} (e : Nat → Byte) (h : k ≤ 8) : (okElements k e).cnt.toNat = k := by
  simp; omega

/-- A lane of an `OK` response at or above the number of its elements is zero. -/
theorem lane_okElements_unused {k j : Nat} (e : Nat → Byte) (hk : k ≤ j) (hj : j < 8) :
    lane (okElements k e).data j = 0x00#8 := by
  rw [lane_okElements k e hj, if_neg (by omega)]

/-- The number of elements of an `OK` answer is its count, so that the lanes from the count on are zero. -/
theorem lane_okElements_of_cnt_le {k j : Nat} (e : Nat → Byte) (hk : k ≤ 8) (hc : (okElements k e).cnt.toNat ≤ j)
    (hj : j < 8) : lane (okElements k e).data j = 0x00#8 :=
  lane_okElements_unused e (okElements_cnt_toNat e hk ▸ hc) hj

/-- Lanes at and above the count hold no element, in every answer. -/
theorem Answers.lane_of_cnt_le {A : Alphabet} {q : ReqWord} {r : Rsp} (h : Answers A q r) {j : Nat}
    (hc : r.cnt.toNat ≤ j) (hj : j < 8) : lane r.data j = 0x00#8 := by
  cases h with
  | symbols legal op size => exact lane_okElements_of_cnt_le _ (F_le size) hc hj
  | bytes legal op size found => exact lane_okElements_of_cnt_le _ ((G_le size).trans (by decide)) hc hj
  | badCount | invalidSymbol | encSize | decSize => exact lane_zero j

/-- `DEC` fills lanes 0 to 4 at most. -/
theorem Answers.lane_of_dec {A : Alphabet} {q : ReqWord} {r : Rsp} (h : Answers A q r) (op : reqOp q = 0b01#2) {j : Nat}
    (h5 : 5 ≤ j) (hj : j < 8) : lane r.data j = 0x00#8 := by
  cases h with
  | bytes _ _ size found => exact lane_okElements_unused _ ((G_le size).trans h5) hj
  | symbols _ op' => simp [op'] at op
  | badCount | invalidSymbol | encSize | decSize => exact lane_zero j

/-- An answer that is not `OK` is an error: its count and its data are zero. -/
theorem Answers.zero_of_not_ok {A : Alphabet} {q : ReqWord} {r : Rsp} (h : Answers A q r) (hs : r.status ≠ 0b00#2) :
    r.cnt = 0#4 ∧ r.data = 0#64 := by
  cases h with
  | badCount | invalidSymbol => exact ⟨rfl, rfl⟩
  | symbols | bytes | encSize | decSize => exact absurd rfl hs

/-- `FLEN` and `GLEN` answer no data. -/
theorem Answers.data_of_size {A : Alphabet} {q : ReqWord} {r : Rsp} (h : Answers A q r)
    (op : reqOp q = 0b10#2 ∨ reqOp q = 0b11#2) : r.data = 0#64 := by
  cases h with
  | symbols _ op' | bytes _ op' => simp [op'] at op
  | badCount | invalidSymbol | encSize | decSize => rfl

/-- Settles O27: each clause is a property of every answer. -/
theorem unusedResponseBitsAreZero : Obligations.UnusedResponseBitsAreZero := by
  intro A q
  obtain ⟨r, hr, h⟩ := b32_answers A q
  rw [hr, rspStatus_packRsp, rspCnt_packRsp, rspData_packRsp]
  exact ⟨fun _ _ _ => h.lane_of_cnt_le, fun op _ => h.lane_of_dec op, h.zero_of_not_ok, h.data_of_size⟩

/-! ## Status codes (R39) -/

theorem readRsp_ok {w : RspWord} (h : rspStatus w = 0b00#2) : readRsp w = some (.ok (rspCnt w, rspData w)) := by
  simp [readRsp, h, okCode]

theorem readRsp_invalidSymbol {w : RspWord} (h : rspStatus w = 0b01#2) :
    readRsp w = some (.error .invalidSymbol) := by simp [readRsp, h, okCode, errorCode]

theorem readRsp_badCount {w : RspWord} (h : rspStatus w = 0b10#2) : readRsp w = some (.error .badCount) := by
  simp [readRsp, h, okCode, errorCode]

/-- The status of an answer is one of the three codes. -/
theorem Answers.status_cases {A : Alphabet} {q : ReqWord} {r : Rsp} (h : Answers A q r) :
    r.status = 0b00#2 ∨ r.status = 0b01#2 ∨ r.status = 0b10#2 := by
  cases h with
  | badCount => exact .inr (.inr rfl)
  | invalidSymbol => exact .inr (.inl rfl)
  | symbols | bytes | encSize | decSize => exact .inl rfl

/-- Settles O28: every answer has one of the three status codes, and a host reads each of them. -/
theorem everyResponseIsReadable : Obligations.EveryResponseIsReadable := by
  intro A q
  have status : rspStatus (b32 A q) = 0b00#2 ∨ rspStatus (b32 A q) = 0b01#2 ∨ rspStatus (b32 A q) = 0b10#2 := by
    obtain ⟨r, hr, h⟩ := b32_answers A q
    rw [hr, rspStatus_packRsp]
    exact h.status_cases
  refine ⟨?_, readRsp_ok, readRsp_invalidSymbol, readRsp_badCount, ?_⟩
  · obtain h | h | h := status <;> rw [h] <;> decide
  · obtain h | h | h := status
    · exact ⟨_, readRsp_ok h⟩
    · exact ⟨_, readRsp_invalidSymbol h⟩
    · exact ⟨_, readRsp_badCount h⟩

/-! ## Ignored request bits (R42) -/

/-- `ENC` reads the consumed lanes only, and none where the count is illegal. -/
theorem encGroup_congr_legal {A : Alphabet} {n : Nat} {b b' : Nat → Byte} (h : n ≤ 5 → ∀ i < n, b i = b' i) :
    encGroup A n b = encGroup A n b' := by
  by_cases hn : n ≤ 5
  · exact encGroup_congr (h hn)
  · rw [encGroup_bad b (by omega), encGroup_bad b' (by omega)]

/-- `DEC` reads the consumed lanes only, and none where the count is illegal. -/
theorem decGroup_congr_legal {A : Alphabet} {m : Nat} {c c' : Nat → Byte} (h : m ≤ 8 → ∀ k < m, c k = c' k) :
    decGroup A m c = decGroup A m c' := by
  by_cases hm : m ≤ 8
  · exact decGroup_congr (h hm)
  · rw [decGroup_bad c (by omega), decGroup_bad c' (by omega)]

/-- Settles O29: by operation code; `ENC` and `DEC` read the consumed lanes only, `FLEN` and `GLEN` the count only. -/
theorem ignoredRequestBitsChangeNothing : Obligations.IgnoredRequestBitsChangeNothing := by
  rintro A q q' ⟨hop, hcnt, henc, hdec⟩
  obtain op | op | op | op := reqOp_cases q
  · rw [b32_enc A op, b32_enc A (hop ▸ op), ← hcnt, encGroup_congr_legal (henc op)]
  · rw [b32_dec A op, b32_dec A (hop ▸ op), ← hcnt, decGroup_congr_legal (hdec op)]
  · rw [b32_flen A op, b32_flen A (hop ▸ op), hcnt]
  · rw [b32_glen A op, b32_glen A (hop ▸ op), hcnt]

end Sys2Proof.Machine
end

section
/-! The reverse lookup of an admissible alphabet, said once as an equivalence, and the statement of 40_alphabet.md about
its results (R53). -/

namespace Sys2Proof.Machine

/-- A hit is the one position whose symbol is the code: the entries are pairwise different (R50 (b)). -/
theorem lookup_eq_some {A : Alphabet} (hA : A.Admissible) {c : Byte} {v : Value} : lookup A c = some v ↔ A v = c where
  mp := lookup_sound
  mpr symbol := symbol ▸ lookup_symbol hA v

/-- Settles O31: the hits by the alphabet's different entries, the misses for any alphabet. -/
theorem lookupFindsTheUniquePosition : Obligations.LookupFindsTheUniquePosition :=
  fun _ hA _ => ⟨fun _ => lookup_eq_some hA, lookup_eq_none⟩

end Sys2Proof.Machine
end

section
/-! What a table operation answers, said once for any table of sizes, and the statements of 41_remainder_tables.md about
`FLEN` (R63) and `GLEN` (R64), which read theirs. -/

namespace Sys2Proof.Machine

/-- The response to index `r` of a table of sizes: the entry, or `BadCount` past the end (R63, R64). -/
def tableRsp (table : List Nat) (r : Nat) : Rsp := table[r]?.elim (raise .badCount) okSize

theorem tableRsp_entry {table : List Nat} {r k : Nat} (h : table[r]? = some k) : tableRsp table r = okSize k := by
  rw [tableRsp, h, Option.elim_some]

theorem tableRsp_outside {table : List Nat} {r : Nat} (h : table.length ≤ r) :
    tableRsp table r = raise .badCount := by
  rw [tableRsp, List.getElem?_eq_none h, Option.elim_none]

theorem flen_eq_tableRsp (r : Nat) : flen r = tableRsp fTable r := by
  cases size : f r with
  | none => rw [flen_bad size, tableRsp_outside (f_eq_none.mp size)]
  | some k => rw [flen_ok size, tableRsp_entry size]

theorem glen_eq_tableRsp (r : Nat) : glen r = tableRsp gTable r := by
  cases size : g r with
  | none => rw [glen_bad size, tableRsp_outside (g_eq_none.mp size)]
  | some k => rw [glen_ok size, tableRsp_entry size]

/-- The count of a size response is the size, where four bits hold it. -/
theorem okSize_cnt_toNat {k : Nat} (h : k < 16) : (okSize k).cnt.toNat = k :=
  BitVec.toNat_ofNat .. ▸ Nat.mod_eq_of_lt h

/-- Inside a table whose entries four bits hold, the response word is `OK` with the entry as its count and no data. -/
theorem tableRsp_fields {table : List Nat} (small : ∀ k ∈ table, k < 16) {r : Nat} (h : r < table.length) :
    rspStatus (packRsp (tableRsp table r)) = 0b00#2 ∧
    table[r]? = some (rspCnt (packRsp (tableRsp table r))).toNat ∧ rspData (packRsp (tableRsp table r)) = 0#64 := by
  have entry : table[r]? = some table[r] := List.getElem?_eq_getElem h
  have count : (okSize table[r]).cnt.toNat = table[r] := okSize_cnt_toNat (small _ (List.getElem_mem h))
  rw [tableRsp_entry entry, rspStatus_packRsp, rspCnt_packRsp, rspData_packRsp, count]
  exact ⟨rfl, entry, rfl⟩

/-- Outside a table the response word is that of `BadCount`. -/
theorem packRsp_tableRsp_outside {table : List Nat} {r : Nat} (h : table.length ≤ r) :
    packRsp (tableRsp table r) = badCountWord := by
  rw [tableRsp_outside h, packRsp_raise_badCount]

theorem flenResponse_flen (r : Nat) : FlenResponse r (packRsp (flen r)) := by
  rw [flen_eq_tableRsp]
  exact ⟨packRsp_tableRsp_outside (table := fTable),
    fun h => tableRsp_fields (table := fTable) (by decide) (Nat.lt_succ_of_le h)⟩

theorem glenResponse_glen (r : Nat) : GlenResponse r (packRsp (glen r)) := by
  rw [glen_eq_tableRsp]
  exact ⟨packRsp_tableRsp_outside (table := gTable),
    fun h => tableRsp_fields (table := gTable) (by decide) (Nat.lt_succ_of_le h)⟩

theorem exec_flen (r : Count) (s : State) :
    exec (.flen r) s = .next { s with rsp := some (packRsp (flen r.toNat)) } := answer_next.mpr rfl

theorem exec_glen (r : Count) (s : State) :
    exec (.glen r) s = .next { s with rsp := some (packRsp (glen r.toNat)) } := answer_next.mpr rfl

/-- Settles O21: the machine and `B32` both answer `FLEN` with the response that `f`'s table has for the index. -/
theorem flenAnswersTheTableEntry : Obligations.FlenAnswersTheTableEntry := by
  refine ⟨fun r s => ⟨_, exec_flen r s, flenResponse_flen _⟩, fun A q op => ?_⟩
  rw [b32_flen A op]
  exact flenResponse_flen _

/-- Settles O22: the machine and `B32` both answer `GLEN` with the response that `g`'s table has for the index. -/
theorem glenAnswersTheTableEntry : Obligations.GlenAnswersTheTableEntry := by
  refine ⟨fun r s => ⟨_, exec_glen r s, glenResponse_glen _⟩, fun A q op => ?_⟩
  rw [b32_glen A op]
  exact glenResponse_glen _

end Sys2Proof.Machine
end

section
/-! What `DEC` answers for given looked-up values, in the slices of R72, with the statements of 42_decoder.md about `DEC`
(R74) and about the empty groups of `ENC` and `DEC` (R78, R91). -/

namespace Sys2Proof.Machine

/-- Bit `j` of byte `i` of the window of eight values (R22). -/
theorem getLsbD_regroup85 (v : Nat → Value) {i j : Nat} (hi : i < 5) (hj : j < 8) :
    (regroup85 v i).getLsbD j = (v (7 - (32 - 8 * i + j) / 5)).getLsbD ((32 - 8 * i + j) % 5) := by
  rw [regroup85, getLsbD_windowByte, getLsbD_windowOfValues v (by omega), decide_eq_true hj, Bool.true_and]

/-- Byte `i` of the window of eight values is its slice of R72: they agree in each of the eight bits. -/
theorem regroup85_eq_slices85 (v : Nat → Value) {i : Nat} (hi : i < 5) : regroup85 v i = slices85 v i := by
  apply BitVec.eq_of_getLsbD_eq
  intro j hj
  rw [getLsbD_regroup85 v hi hj]
  interval_cases i <;> simp only [slices85, BitVec.getLsbD_append, BitVec.getLsbD_extractLsb'] <;>
    interval_cases j <;> simp

/-- `G` as one table, the full group its last entry (R62). -/
theorem G_eq_getElem? (m : Nat) : G m = ([0, 1, 2, 2, 3, 4, 4, 5, 5] : List Nat)[m]? := by
  by_cases h : m ≤ 8
  · interval_cases m <;> rfl
  · rw [G_eq_none (by omega), List.getElem?_eq_none (by simp; omega)]

/-! The slots of `DEC` where every consumed lane `k` holds the symbol of the value `v k` (R70, R71). -/

section
variable {A : Alphabet} {m : Nat} {c : Nat → Byte} {v : Nat → Value}

theorem decMisses_of_found (hm : m ≤ 8) (found : ∀ k < m, lookup A (c k) = some (v k)) :
    decMisses A m c = false := by
  rw [Bool.eq_false_iff, ne_eq, decMisses_iff hm]
  rintro ⟨k, hk, miss⟩
  simp [found k hk] at miss

theorem decValue_of_found (found : ∀ k < m, lookup A (c k) = some (v k)) (absent : ∀ k, m ≤ k → v k = 0#5) :
    decValue A m c = v := by
  funext k
  by_cases hk : k < m
  · simp [decValue, decSlot, hk, found k hk]
  · simp [decValue, decSlot, hk, absent k (by omega)]

/-- `DEC` with a legal count and no miss: the first `G(m)` bytes in the slices of R72. -/
theorem decGroup_of_found {n : Nat} (size : G m = some n) (found : ∀ k < m, lookup A (c k) = some (v k))
    (absent : ∀ k, m ≤ k → v k = 0#5) : decGroup A m c = okElements n (slices85 v) := by
  have hm : m ≤ 8 := G_isSome.mp (by rw [size]; rfl)
  rw [decGroup_ok size (decMisses_of_found hm found)]
  apply okElements_congr
  intro i hi
  rw [decByte, decValue_of_found found absent, regroup85_eq_slices85 v (hi.trans_le (G_le size))]

end

/-- The response of `DEC` is the one R74 gives, for every count, by its three cases. -/
theorem decResponse_decGroup (A : Alphabet) (m : Nat) (c : Nat → Byte) :
    DecResponse A m c (packRsp (decGroup A m c)) := by
  refine ⟨fun illegal => ?_, fun legal miss => ?_, fun legal v found absent => ?_⟩
  · rw [decGroup_bad c illegal, packRsp_raise_badCount]
  · rw [decGroup_miss legal ((decMisses_iff legal).mpr miss)]
    rfl
  · obtain ⟨n, size⟩ := Option.isSome_iff_exists.mp (G_isSome.mpr legal)
    have count : (okElements n (slices85 v)).cnt.toNat = n := okElements_cnt_toNat _ ((G_le size).trans (by decide))
    rw [decGroup_of_found size found absent, rspStatus_packRsp, rspCnt_packRsp, rspData_packRsp, count]
    exact ⟨rfl, G_eq_getElem? m ▸ size, fun i => lane_okElements n (slices85 v)⟩

theorem exec_enc (n : Count) (bs : List Byte) (s : State) :
    exec (.enc n bs) s = .next { s with rsp := some (packRsp (encGroup alphabet n.toNat (listed bs))) } :=
  answer_next.mpr rfl

theorem exec_dec (m : Count) (cs : List Byte) (s : State) :
    exec (.dec m cs) s = .next { s with rsp := some (packRsp (decGroup alphabet m.toNat (listed cs))) } :=
  answer_next.mpr rfl

/-- Settles O20: the machine and `B32` both answer `DEC` with the response of R74, the lanes being the listed codes for
the one and the lanes of the word for the other. -/
theorem decAnswersTheBytesOfItsSymbols : Obligations.DecAnswersTheBytesOfItsSymbols := by
  refine ⟨fun m cs s => ⟨_, exec_dec m cs s, decResponse_decGroup ..⟩, fun A q op => ?_⟩
  rw [b32_dec A op]
  exact decResponse_decGroup ..

/-- Settles O30: with count 0 no lane is consumed and no element answered, by either operation. -/
theorem emptyGroupsAnswerOkWithNothing : Obligations.EmptyGroupsAnswerOkWithNothing := by
  refine ⟨fun bs s => ?_, fun cs s => ?_⟩
  · rw [exec_enc, BitVec.toNat_zero, encGroup_empty]
  · rw [exec_dec, BitVec.toNat_zero, decGroup_empty]

end Sys2Proof.Machine
end

section
/-! What `ENC` answers, in the slices of R86, with the statement of 43_encoder.md about `ENC` (R88). -/

namespace Sys2Proof.Machine

/-- Bit `j` of value `k` of the window of five bytes (R22). -/
theorem getLsbD_regroup58 (b : Nat → Byte) {k j : Nat} (hk : k < 8) (hj : j < 5) :
    (regroup58 b k).getLsbD j = (b (4 - (35 - 5 * k + j) / 8)).getLsbD ((35 - 5 * k + j) % 8) := by
  rw [regroup58, getLsbD_windowValue, getLsbD_windowOfBytes b (by omega), decide_eq_true hj, Bool.true_and]

/-- Value `k` of the window of five bytes is its slice of R86: they agree in each of the five bits. -/
theorem regroup58_eq_slices58 (b : Nat → Byte) {k : Nat} (hk : k < 8) : regroup58 b k = slices58 b k := by
  apply BitVec.eq_of_getLsbD_eq
  intro j hj
  rw [getLsbD_regroup58 b hk hj]
  interval_cases k <;> simp only [slices58, BitVec.getLsbD_append, BitVec.getLsbD_extractLsb'] <;>
    interval_cases j <;> simp

/-- `F` as one table, the full group its last entry (R62). -/
theorem F_eq_getElem? (n : Nat) : F n = ([0, 2, 4, 5, 7, 8] : List Nat)[n]? := by
  by_cases h : n ≤ 5
  · interval_cases n <;> rfl
  · rw [F_eq_none (by omega), List.getElem?_eq_none (by simp; omega)]

/-- `ENC` with a legal count: the symbols of the first `F(n)` values, in the slices of R86 of the masked bytes. -/
theorem encGroup_of_size {A : Alphabet} {n k : Nat} (b : Nat → Byte) (size : F n = some k) :
    encGroup A n b = okElements k fun j => A (slices58 (encByte n b) j) := by
  rw [encGroup_ok b size]
  apply okElements_congr
  intro j hj
  rw [encValue, regroup58_eq_slices58 _ (hj.trans_le (F_le size))]

/-- The response of `ENC` is the one R88 gives, for every count, by its two cases. -/
theorem encResponse_encGroup (A : Alphabet) (n : Nat) (b : Nat → Byte) :
    EncResponse A n b (packRsp (encGroup A n b)) := by
  refine ⟨fun illegal => ?_, fun legal => ?_⟩
  · rw [encGroup_bad b illegal, packRsp_raise_badCount]
  · obtain ⟨k, size⟩ := Option.isSome_iff_exists.mp (F_isSome.mpr legal)
    rw [encGroup_of_size b size, rspStatus_packRsp, rspCnt_packRsp, rspData_packRsp,
      okElements_cnt_toNat _ (F_le size)]
    exact ⟨rfl, F_eq_getElem? n ▸ size, fun j => lane_okElements k _⟩

/-- Settles O19: the machine and `B32` both answer `ENC` with the response of R88, the lanes being the listed bytes for
the one and the lanes of the word for the other. -/
theorem encAnswersTheSymbolsOfItsBytes : Obligations.EncAnswersTheSymbolsOfItsBytes := by
  refine ⟨fun n bs s => ⟨_, exec_enc n bs s, encResponse_encGroup ..⟩, fun A q op => ?_⟩
  rw [b32_enc A op]
  exact encResponse_encGroup ..

end Sys2Proof.Machine
end

section
/-! The groups of a sequence put together again, and the sequences that are one group or none (R25, R106). -/

namespace Sys2Proof.Machine

@[simp] theorem groups_nil (k : Nat) : groups k [] = [] := by simp [groups]

/-- A sequence of at most `k` elements that is not empty is its only group. -/
theorem groups_single {k : Nat} {l : List Byte} (h0 : l ≠ []) (hk : l.length ≤ k) : groups k l = [l] := by
  obtain h | rfl := hk.lt_or_eq
  · rw [groups_short h, if_neg h0]
  · rw [groups_full (List.length_pos_iff.mpr h0) le_rfl, List.take_length, List.drop_length, groups_nil]

theorem flatten_groups {k : Nat} (hk : 0 < k) (l : List Byte) : (groups k l).flatten = l := by
  induction l using groups_induction hk with
  | short l h => rw [groups_short h]; split <;> simp [*]
  | full l h ih => rw [groups_full hk h, List.flatten_cons, ih, List.take_append_drop]

/-- The elements of a sequence are those of its groups. -/
theorem exists_mem_groups {k : Nat} (hk : 0 < k) {l : List Byte} {p : Byte → Prop} :
    (∃ x ∈ groups k l, ∃ c ∈ x, p c) ↔ ∃ c ∈ l, p c := by
  conv_rhs => rw [← flatten_groups hk l]
  simp only [List.mem_flatten]
  constructor
  · rintro ⟨x, hx, c, hc, h⟩
    exact ⟨c, ⟨x, hx, hc⟩, h⟩
  · rintro ⟨c, ⟨x, hx, hc⟩, h⟩
    exact ⟨x, hx, c, hc, h⟩

/-- Element `k` of a list, inside it. -/
theorem listed_eq_getElem {es : List Byte} {k : Nat} (h : k < es.length) : listed es k = es[k] := by
  simp [listed, h]

end Sys2Proof.Machine
end

section
/-! `ENCODE` group by group: every response of its expansion is `OK` (R101), and the text of a sequence that is one
group. -/

namespace Sys2Proof.Machine

/-- The response to the `ENC` request of a group: the symbols of its values, never an error. -/
theorem b32_encRequest_ok (A : Alphabet) {bs : List Byte} {k : Nat} (size : F bs.length = some k) :
    b32 A (encode (encRequest bs)) = packRsp (okElements k fun j => A (encValue bs.length (listed bs) j)) := by
  rw [b32_encRequest A (F_isSome.mp (by rw [size]; rfl)), encGroup_ok _ size]

/-- Settles O45: every group holds at most 5 bytes, a legal count of `ENC`. -/
theorem encodeNeverFails : Obligations.EncodeNeverFails := by
  intro A b q hq
  obtain ⟨x, hx, rfl⟩ := List.mem_map.mp hq
  have legal : x.length ≤ 5 := length_le_of_mem_groups (by decide) b x hx
  obtain ⟨k, size⟩ := Option.isSome_iff_exists.mp (F_isSome.mpr legal)
  rw [b32_encRequest_ok A size, rspStatus_packRsp, okElements_status, okCode]

/-- `ENCODE` of one group: the symbols of its values. -/
theorem encodeSeq_single (A : Alphabet) {bs : List Byte} {k : Nat} (h0 : bs ≠ []) (size : F bs.length = some k) :
    encodeSeq A bs = ((List.range k).map (encValue bs.length (listed bs))).map A := by
  have legal : bs.length ≤ 5 := F_isSome.mp (by rw [size]; rfl)
  rw [encodeSeq, encodeRequests, groups_single h0 legal, List.map_singleton, List.flatMap_singleton,
    b32_encRequest_ok A size, rspBytes_okElements _ (F_le size), List.map_map]
  rfl

end Sys2Proof.Machine
end

section
/-! `DECODE` group by group: what the host collects, what each group answers, and the statements about failure (R104)
and length (R105). -/

namespace Sys2Proof.Machine

/-! What the host makes of a list of responses (R103, R104). -/

theorem collect_eq_failure {rs : List RspWord} : collect rs = .failure ↔ ∃ w ∈ rs, rspStatus w ≠ okCode := by
  unfold collect
  split <;> simp_all

theorem collect_eq_success {rs : List RspWord} {x : List Byte} :
    collect rs = .success x ↔ (∀ w ∈ rs, rspStatus w = okCode) ∧ rs.flatMap rspBytes = x := by
  unfold collect
  split <;> simp_all

/-! What `B32` answers to the `DEC` request of a group. -/

/-- A group misses where one of its characters is outside the alphabet. -/
theorem decMisses_listed {A : Alphabet} {cs : List Byte} (h : cs.length ≤ 8) :
    decMisses A cs.length (listed cs) = true ↔ ∃ c ∈ cs, ∀ v, A v ≠ c := by
  simp only [decMisses_iff h, lookup_eq_none]
  constructor
  · rintro ⟨k, hk, miss⟩
    exact ⟨cs[k], List.getElem_mem hk, listed_eq_getElem hk ▸ miss⟩
  · rintro ⟨c, hc, miss⟩
    obtain ⟨k, hk, rfl⟩ := List.getElem_of_mem hc
    exact ⟨k, hk, (listed_eq_getElem hk).symm ▸ miss⟩

/-- Everything `B32` can answer to the `DEC` request of a group: `InvalidSymbol` where a character is outside the
alphabet, else the bytes of the group. `BadCount` is not among them. -/
theorem b32_decRequest_cases (A : Alphabet) {cs : List Byte} (h : cs.length ≤ 8) :
    ((∃ c ∈ cs, ∀ v, A v ≠ c) ∧ b32 A (encode (decRequest cs)) = packRsp (raise .invalidSymbol)) ∨
    (¬ (∃ c ∈ cs, ∀ v, A v ≠ c) ∧ ∃ k, G cs.length = some k ∧
      b32 A (encode (decRequest cs)) = packRsp (okElements k (decByte A cs.length (listed cs)))) := by
  rw [b32_decRequest A h, ← decMisses_listed h]
  cases hc : decMisses A cs.length (listed cs) with
  | true => exact .inl ⟨rfl, by rw [decGroup_miss h hc]⟩
  | false =>
    obtain ⟨k, size⟩ := Option.isSome_iff_exists.mp (G_isSome.mpr h)
    exact .inr ⟨by simp, k, size, by rw [decGroup_ok size hc]⟩

/-- A group's response is an error exactly where a character is outside the alphabet. -/
theorem status_decRequest_ne_ok (A : Alphabet) {cs : List Byte} (h : cs.length ≤ 8) :
    rspStatus (b32 A (encode (decRequest cs))) ≠ okCode ↔ ∃ c ∈ cs, ∀ v, A v ≠ c := by
  obtain ⟨miss, hw⟩ | ⟨found, k, -, hw⟩ := b32_decRequest_cases A h
  · rw [hw, rspStatus_packRsp]
    exact iff_of_true (by decide) miss
  · rw [hw, rspStatus_packRsp]
    exact iff_of_false (by simp) found

/-- A group's response has no status `BadCount`, and no bytes under `InvalidSymbol`. -/
theorem decRequest_error (A : Alphabet) {cs : List Byte} (h : cs.length ≤ 8) :
    rspStatus (b32 A (encode (decRequest cs))) ≠ 0b10#2 ∧
    (rspStatus (b32 A (encode (decRequest cs))) = 0b01#2 → rspBytes (b32 A (encode (decRequest cs))) = []) := by
  obtain ⟨-, hw⟩ | ⟨-, k, -, hw⟩ := b32_decRequest_cases A h
  · rw [hw]
    decide
  · rw [hw, rspStatus_packRsp, okElements_status]
    exact ⟨by decide, fun failed => absurd failed (by decide)⟩

/-- What holds of the request of every group of at most 8 characters holds of the whole expansion. -/
theorem forall_mem_decodeRequests {s : List Byte} {p : ReqWord → Prop}
    (h : ∀ cs : List Byte, cs.length ≤ 8 → p (encode (decRequest cs))) : ∀ q ∈ decodeRequests s, p q :=
  List.forall_mem_map.mpr fun x hx => h x (length_le_of_mem_groups (by decide) s x hx)

/-! ## Failure (R104) -/

theorem decodeSeq_eq_failure {A : Alphabet} {s : List Byte} :
    decodeSeq A s = .failure ↔ ∃ c ∈ s, ∀ v, A v ≠ c := by
  calc decodeSeq A s = .failure
      ↔ ∃ x ∈ groups 8 s, rspStatus (b32 A (encode (decRequest x))) ≠ okCode := by
        simp [decodeSeq, decodeRequests, collect_eq_failure]
    _ ↔ ∃ x ∈ groups 8 s, ∃ c ∈ x, ∀ v, A v ≠ c :=
        exists_congr fun x => and_congr_right fun hx =>
          status_decRequest_ne_ok A (length_le_of_mem_groups (by decide) s x hx)
    _ ↔ ∃ c ∈ s, ∀ v, A v ≠ c := exists_mem_groups (by decide)

theorem decodeSeq_succeeds {A : Alphabet} {s : List Byte} (h : ∀ c ∈ s, ∃ v, A v = c) :
    ∃ x, decodeSeq A s = .success x := by
  cases hd : decodeSeq A s with
  | success x => exact ⟨x, rfl⟩
  | failure =>
    obtain ⟨c, hc, miss⟩ := decodeSeq_eq_failure.mp hd
    obtain ⟨v, symbol⟩ := h c hc
    exact absurd symbol (miss v)

/-- One failing response is enough for the host to answer the failure. -/
theorem collect_of_mem_invalidSymbol {rs : List RspWord} (h : ∃ w ∈ rs, rspStatus w = 0b01#2) :
    collect rs = .failure := by
  obtain ⟨w, hw, failed⟩ := h
  exact collect_eq_failure.mpr ⟨w, hw, by rw [failed]; decide⟩

/-- Settles O47: by the failing groups; the responses a host has seen when it stops are among all of them. -/
theorem decodeFailsExactlyOffTheAlphabet : Obligations.DecodeFailsExactlyOffTheAlphabet := by
  refine ⟨fun A s => decodeSeq_eq_failure, fun A s => decodeSeq_succeeds, fun A s k seen => ?_,
    fun A s => forall_mem_decodeRequests fun cs => decRequest_error A⟩
  refine ⟨collect_of_mem_invalidSymbol seen, collect_of_mem_invalidSymbol ?_⟩
  obtain ⟨w, hw, failed⟩ := seen
  exact ⟨w, List.mem_of_mem_take hw, failed⟩

/-! ## Length (R105) -/

theorem g_eq_ceil {r : Nat} (h : r < 8) : g r = some ((5 * r + 7) / 8) := by
  interval_cases r <;> rfl

theorem G_eq_ceil {m : Nat} (h : m ≤ 8) : G m = some ((5 * m + 7) / 8) := by
  interval_cases m <;> rfl

/-- `DecLen(m)` is `⌈5m/8⌉`, whatever the remainder. -/
theorem decLen_eq_ceil (m : Nat) : decLen m = (5 * m + 7) / 8 := by
  rw [decLen, g_eq_ceil (Nat.mod_lt m (by decide)), Option.getD_some]
  omega

/-- Where every group gives its `G` bytes, all of them together give `DecLen`: a full group adds 5. -/
theorem length_flatMap_groups {φ : List Byte → List Byte} (l : List Byte)
    (h : ∀ x ∈ groups 8 l, G x.length = some (φ x).length) :
    ((groups 8 l).flatMap φ).length = decLen l.length := by
  induction l using groups_induction (k := 8) (by decide) with
  | short l hl =>
    by_cases h0 : l = []
    · subst h0
      rw [groups_nil]
      rfl
    · rw [groups_single h0 hl.le] at h ⊢
      have size := h l (List.mem_singleton.mpr rfl)
      rw [G_eq_ceil hl.le, Option.some.injEq] at size
      rw [List.flatMap_singleton, ← size, decLen_eq_ceil]
  | full l hl ih =>
    rw [groups_full (by decide) hl, List.forall_mem_cons] at h
    obtain ⟨first, rest⟩ := h
    have five : (φ (l.take 8)).length = 5 := by simpa [hl, G] using first.symm
    rw [groups_full (by decide) hl, List.flatMap_cons, List.length_append, five, ih rest, decLen_eq_ceil,
      decLen_eq_ceil, List.length_drop]
    omega

/-- The bytes of a group whose response is `OK` are `G` many. -/
theorem G_length_of_status_ok {A : Alphabet} {cs : List Byte} (h : cs.length ≤ 8)
    (ok : rspStatus (b32 A (encode (decRequest cs))) = okCode) :
    G cs.length = some (rspBytes (b32 A (encode (decRequest cs)))).length := by
  obtain ⟨miss, -⟩ | ⟨-, k, size, hw⟩ := b32_decRequest_cases A h
  · exact absurd ok ((status_decRequest_ne_ok A h).mpr miss)
  · rw [size, hw, rspBytes_okElements _ ((G_le size).trans (by decide)), List.length_map, List.length_range]

theorem length_of_decodeSeq {A : Alphabet} {s x : List Byte} (h : decodeSeq A s = .success x) :
    x.length = decLen s.length := by
  obtain ⟨ok, rfl⟩ := collect_eq_success.mp h
  simp only [decodeRequests, List.map_map, List.forall_mem_map, Function.comp_apply] at ok
  simp only [decodeRequests, List.map_map, List.flatMap_map, Function.comp_apply]
  exact length_flatMap_groups s fun x hx =>
    G_length_of_status_ok (length_le_of_mem_groups (by decide) s x hx) (ok x hx)

theorem decLen_mono {m m' : Nat} (h : m ≤ m') : decLen m ≤ decLen m' := by
  rw [decLen_eq_ceil, decLen_eq_ceil]
  omega

/-- Settles O48: the law by induction over the groups, monotonicity by the closed form, the fixed lengths by
evaluation. -/
theorem decodeLengthLaw : Obligations.DecodeLengthLaw := by
  refine ⟨fun A s x => length_of_decodeSeq, fun m => ?_, by decide, fun m m' => decLen_mono, by decide, by decide,
    by decide⟩
  have entry := g_eq_ceil (Nat.mod_lt m (by decide : 0 < 8))
  exact ⟨_, entry, by rw [decLen, entry, Option.getD_some]⟩

/-! ## One group -/

/-- `DECODE` of one group of symbols: the bytes of R72 of its values, the absent ones being 0. -/
theorem decodeSeq_symbols {A : Alphabet} (hA : A.Admissible) {vs : List Value} {n : Nat} (h0 : vs ≠ [])
    (size : G vs.length = some n) :
    decodeSeq A (vs.map A) = .success ((List.range n).map (slices85 fun k => vs.getD k 0#5)) := by
  have legal : (vs.map A).length ≤ 8 := G_isSome.mp (by rw [List.length_map, size]; rfl)
  have found : ∀ k < vs.length, lookup A (listed (vs.map A) k) = some (vs.getD k 0#5) := by
    intro k hk
    rw [listed_eq_getElem (by simpa using hk), List.getElem_map, lookup_symbol hA, List.getD_eq_getElem _ _ hk]
  have absent : ∀ k, vs.length ≤ k → vs.getD k 0#5 = 0#5 := fun k hk => List.getD_eq_default _ _ hk
  rw [decodeSeq, decodeRequests, groups_single (by simpa using h0) legal, List.map_singleton, List.map_singleton,
    b32_decRequest A legal, List.length_map, decGroup_of_found size found absent, collect_eq_success,
    List.flatMap_singleton, rspBytes_okElements _ ((G_le size).trans (by decide))]
  exact ⟨by simp, rfl⟩

end Sys2Proof.Machine
end

section
/-! The statements about given sequences: the empty ones (R106) and the source's vectors (R112). -/

namespace Sys2Proof.Machine

@[simp] theorem encodeSeq_nil (A : Alphabet) : encodeSeq A [] = [] := by
  rw [encodeSeq, encodeRequests, groups_nil, List.map_nil, List.flatMap_nil]

@[simp] theorem decodeSeq_nil (A : Alphabet) : decodeSeq A [] = .success [] := by
  rw [decodeSeq, decodeRequests, groups_nil, List.map_nil, List.map_nil]
  rfl

/-- Settles O49: an empty sequence has no group. -/
theorem emptySequences : Obligations.EmptySequences := by
  intro A
  simp

/-- Five equal bytes whose values are all `v` encode to eight times the symbol of `v`. -/
theorem encodeSeq_replicate (A : Alphabet) {b : Byte} {v : Value}
    (values : (List.range 8).map (encValue 5 (listed (List.replicate 5 b))) = List.replicate 8 v) :
    encodeSeq A (List.replicate 5 b) = List.replicate 8 (A v) := by
  rw [encodeSeq_single A (k := 8) (by simp) (by simp [F]), List.length_replicate, values, List.map_replicate]

/-- Eight times the symbol of `v` decodes to five equal bytes where the slices of R72 are all that byte. -/
theorem decodeSeq_replicate {A : Alphabet} (hA : A.Admissible) {b : Byte} {v : Value}
    (bytes : (List.range 5).map (slices85 fun k => (List.replicate 8 v).getD k 0#5) = List.replicate 5 b) :
    decodeSeq A (List.replicate 8 (A v)) = .success (List.replicate 5 b) := by
  rw [← List.map_replicate, decodeSeq_symbols hA (n := 5) (by simp) (by simp [G]), bytes]

/-- Settles O56: the two full groups by their values, 0 and 31, whose symbols R50 fixes; `'0'` is no symbol. -/
theorem sourceVectorsHold : Obligations.SourceVectorsHold := by
  intro A hA
  rw [← hA.zero, ← hA.last]
  refine ⟨encodeSeq_replicate A (by decide), decodeSeq_replicate hA (by decide), encodeSeq_replicate A (by decide),
    decodeSeq_replicate hA (by decide), decodeSeq_eq_failure.mpr ⟨0x30#8, List.mem_singleton.mpr rfl, ?_⟩⟩
  exact fun v => (hA.omits v).1

end Sys2Proof.Machine
end

section
/-! The step of the machine against `B32`: what a driven request decodes to answers `B32(REQ)` (R18, R40). -/

namespace Sys2Proof.Machine

/-! The decoder by operation code (R36). -/

theorem decodeWord_enc {q : ReqWord} (h : reqOp q = 0b00#2) :
    decodeWord q = .enc (reqCnt q) (lanes (min (reqCnt q).toNat 5) (reqData q)) := by simp [decodeWord, h]

theorem decodeWord_dec {q : ReqWord} (h : reqOp q = 0b01#2) :
    decodeWord q = .dec (reqCnt q) (lanes (min (reqCnt q).toNat 8) (reqData q)) := by simp [decodeWord, h]

theorem decodeWord_flen {q : ReqWord} (h : reqOp q = 0b10#2) : decodeWord q = .flen (reqCnt q) := by
  simp [decodeWord, h]

theorem decodeWord_glen {q : ReqWord} (h : reqOp q = 0b11#2) : decodeWord q = .glen (reqCnt q) := by
  simp [decodeWord, h]

/-- The operation a word decodes to answers the `B32` of the word: the lanes that are not listed are not read. -/
theorem exec_decodeWord (q : ReqWord) (s : State) :
    exec (decodeWord q) s = .next { s with rsp := some (b32 alphabet q) } := by
  obtain op | op | op | op := reqOp_cases q
  · rw [decodeWord_enc op, exec_enc, b32_enc _ op, encGroup_listed fun i => listed_lanes (reqData q)]
  · rw [decodeWord_dec op, exec_dec, b32_dec _ op, decGroup_listed fun k => listed_lanes (reqData q)]
  · rw [decodeWord_flen op, exec_flen, b32_flen _ op]
  · rw [decodeWord_glen op, exec_glen, b32_glen _ op]

/-- A transaction leaves the port as driving the request shows it, whatever state the machine was in. -/
theorem present_next (s : State) (q : ReqWord) : present s q = .next (s.drive (some q)) := by
  rw [present_eq, exec_decodeWord]
  rfl

end Sys2Proof.Machine
end

section
/-! The two errors of 60_exceptions.md: the requests that raise `InvalidSymbol` (R120), and what an operation that
raises an error leaves behind (R124, R126). -/

namespace Sys2Proof.Machine

theorem packRsp_raise_invalidSymbol : packRsp (raise .invalidSymbol) = invalidSymbolWord := rfl

/-! ## `InvalidSymbol` (R120) -/

/-- The status of an answer is `InvalidSymbol` exactly where the count is legal and a lane `DEC` consumes misses. -/
theorem Answers.status_eq_invalidSymbol {A : Alphabet} {q : ReqWord} {r : Rsp} (h : Answers A q r) :
    r.status = 0b01#2 ↔
      ¬ illegalCount q ∧ reqOp q = 0b01#2 ∧ decMisses A (reqCnt q).toNat (lane (reqData q)) = true := by
  cases h with
  | badCount illegal => exact iff_of_false (by decide) fun raised => raised.1 illegal
  | invalidSymbol legal op miss => exact iff_of_true rfl ⟨legal, op, miss⟩
  | symbols _ op | encSize _ op | decSize _ op => exact iff_of_false (by simp [okCode]) (by simp [op])
  | bytes _ _ _ found => exact iff_of_false (by simp [okCode]) (by simp [found])

/-- No answer but `InvalidSymbol` has its status. -/
theorem Answers.eq_invalidSymbol {A : Alphabet} {q : ReqWord} {r : Rsp} (h : Answers A q r)
    (status : r.status = 0b01#2) : r = raise .invalidSymbol := by
  cases h with
  | invalidSymbol => rfl
  | badCount | symbols | bytes | encSize | decSize => exact absurd status (by simp [okCode, errorCode])

theorem not_illegalCount_dec {q : ReqWord} (op : reqOp q = 0b01#2) : ¬ illegalCount q ↔ (reqCnt q).toNat ≤ 8 := by
  rw [illegalCount_dec op]
  omega

/-- Settles O25: by the answers there are; a lane misses where no symbol of the alphabet is its code. -/
theorem invalidSymbolExactlyOnAMissingSymbol : Obligations.InvalidSymbolExactlyOnAMissingSymbol := by
  refine ⟨fun A q => ?_, fun A q status => ?_⟩
  · obtain ⟨r, hr, h⟩ := b32_answers A q
    rw [hr, rspStatus_packRsp, h.status_eq_invalidSymbol, and_left_comm]
    refine and_congr_right fun op => ?_
    rw [not_illegalCount_dec op]
    refine and_congr_right fun legal => ?_
    simp only [decMisses_iff legal, lookup_eq_none]
  · obtain ⟨r, hr, h⟩ := b32_answers A q
    rw [hr, rspStatus_packRsp] at status
    rw [hr, h.eq_invalidSymbol status, packRsp_raise_invalidSymbol]

/-! ## What a raised error leaves behind (R124, R126) -/

/-- The words an operation completes with, each with the condition under which it is the one given: the whole response
word of an error, `BadCount` first, or a word whose status is `OK` (R123, R125). -/
inductive Completion (A : Alphabet) (i : Instr) : RspWord → Prop
  | badCount (illegal : countLegal i = false) : Completion A i badCountWord
  | invalidSymbol (legal : countLegal i = true) (miss : symbolMissing A i = true) : Completion A i invalidSymbolWord
  | ok {w : RspWord} (legal : countLegal i = true) (found : symbolMissing A i = false) (status : rspStatus w = 0b00#2) :
      Completion A i w

/-- An operation that looks nothing up, with legal counts up to `b`, completes by its count `n` alone. -/
theorem Completion.of_response {A : Alphabet} {i : Instr} {w : RspWord} {n b : Nat} {fields : Prop}
    (count : countLegal i = decide (n ≤ b)) (found : symbolMissing A i = false)
    (response : (b < n → w = badCountWord) ∧ (n ≤ b → rspStatus w = 0b00#2 ∧ fields)) : Completion A i w := by
  obtain ⟨bad, good⟩ := response
  by_cases h : n ≤ b
  · exact .ok (count.trans (decide_eq_true h)) found (good h).1
  · rw [bad (Nat.lt_of_not_le h)]
    exact .badCount (count.trans (decide_eq_false h))

theorem completion_enc (A : Alphabet) (n : Count) (bs : List Byte) :
    Completion A (.enc n bs) (packRsp (encGroup A n.toNat (listed bs))) :=
  .of_response rfl rfl (encResponse_encGroup A n.toNat (listed bs))

theorem completion_dec (A : Alphabet) (m : Count) (cs : List Byte) :
    Completion A (.dec m cs) (packRsp (decGroup A m.toNat (listed cs))) := by
  cases legal : countLegal (.dec m cs) with
  | false =>
    rw [decGroup_bad _ (by simpa [countLegal] using legal)]
    exact .badCount legal
  | true =>
    have hm : m.toNat ≤ 8 := by simpa [countLegal] using legal
    cases miss : decMisses A m.toNat (listed cs) with
    | true =>
      rw [decGroup_miss hm miss]
      exact .invalidSymbol legal miss
    | false =>
      obtain ⟨k, size⟩ := Option.isSome_iff_exists.mp (G_isSome.mpr hm)
      rw [decGroup_ok size miss]
      exact .ok legal miss (rspStatus_packRsp _)

theorem completion_flen (A : Alphabet) (r : Count) : Completion A (.flen r) (packRsp (flen r.toNat)) :=
  .of_response rfl rfl (flenResponse_flen r.toNat)

theorem completion_glen (A : Alphabet) (r : Count) : Completion A (.glen r) (packRsp (glen r.toNat)) :=
  .of_response rfl rfl (glenResponse_glen r.toNat)

/-- Everything an operation can do: it completes with one of these words on the port, and nothing else changes. -/
theorem exec_completes (i : Instr) (s : State) :
    ∃ w, exec i s = .next { s with rsp := some w } ∧ Completion alphabet i w := by
  cases i with
  | enc n bs => exact ⟨_, exec_enc n bs s, completion_enc alphabet n bs⟩
  | dec m cs => exact ⟨_, exec_dec m cs s, completion_dec alphabet m cs⟩
  | flen r => exact ⟨_, exec_flen r s, completion_flen alphabet r⟩
  | glen r => exact ⟨_, exec_glen r s, completion_glen alphabet r⟩

section
variable {A : Alphabet} {i : Instr} {w : RspWord}

theorem Completion.eq_badCountWord (h : Completion A i w) (illegal : countLegal i = false) : w = badCountWord := by
  cases h with
  | badCount => rfl
  | invalidSymbol legal | ok legal => simp [illegal] at legal

theorem Completion.eq_invalidSymbolWord (h : Completion A i w) (legal : countLegal i = true)
    (miss : symbolMissing A i = true) : w = invalidSymbolWord := by
  cases h with
  | badCount illegal => simp [legal] at illegal
  | invalidSymbol => rfl
  | ok _ found => simp [miss] at found

theorem Completion.error_of_not_ok (h : Completion A i w) (failed : rspStatus w ≠ 0b00#2) :
    w = badCountWord ∨ w = invalidSymbolWord := by
  cases h with
  | badCount => exact .inl rfl
  | invalidSymbol => exact .inr rfl
  | ok _ _ status => exact absurd status failed

end

/-- Settles O26: by the words an operation completes with; the request after a failure is answered as from any state. -/
theorem raisedErrorsLeaveNothingBehind : Obligations.RaisedErrorsLeaveNothingBehind := by
  refine ⟨fun i s => ?_, fun s t q _ _ => ⟨_, present_next t q, drive_rsp t (some q)⟩⟩
  obtain ⟨w, answered, h⟩ := exec_completes i s
  exact ⟨w, answered, h.eq_badCountWord, h.eq_invalidSymbolWord, h.error_of_not_ok⟩

end Sys2Proof.Machine
end

section
/-! The machine at its port: what a step answers to the request that is driven (R7, R18, R40), that the port is
consistent at every instant (R19), and what a host finds that presents or holds requests (R27, R29). -/

namespace Sys2Proof.Machine

/-! ## One step -/

/-- A step leaves the port as driving its request shows it. -/
theorem step_driven {s : State} {q : ReqWord} (h : s.req = some q) : step s = .next (s.drive (some q)) := by
  rw [step_some h, exec_decodeWord, h]
  rfl

/-- Where the port is consistent, driving the request that is driven already changes nothing. -/
theorem drive_self {s : State} (h : s.PortInv) : s.drive s.req = s := by
  rw [State.drive, ← h]

/-- Settles O4: a step is the driving of its request, read field by field. -/
theorem stepAnswersB32 : Obligations.StepAnswersB32 :=
  fun _ _ => step_driven

/-- Settles O2: the one refusal is that of an empty port, since a driven request is answered. -/
theorem stepStopsOnlyWithoutRequest : Obligations.StepStopsOnlyWithoutRequest := by
  refine ⟨fun s r => ?_, fun s driven => ?_⟩
  · cases h : s.req with
    | none => simp [step_none h, eq_comm]
    | some q => simp [step_driven h]
  · obtain ⟨q, h⟩ := Option.ne_none_iff_exists'.mp driven
    exact ⟨_, step_driven h⟩

/-- Settles O3: what a step runs is what its request decodes to. -/
theorem stepRunsTheDecodedRequest : Obligations.StepRunsTheDecodedRequest :=
  fun _ _ => step_some

/-- An operation answers the same word in every state, and changes nothing else. -/
theorem exec_answers_one_word (i : Instr) :
    ∃ w, ∀ s : State, exec i s = .next { s with rsp := some w } := by
  cases i with
  | enc n bs => exact ⟨_, exec_enc n bs⟩
  | dec m cs => exact ⟨_, exec_dec m cs⟩
  | flen r => exact ⟨_, exec_flen r⟩
  | glen r => exact ⟨_, exec_glen r⟩

/-- Settles O11: by the one word an operation answers. -/
theorem operationsChangeOnlyTheResponse : Obligations.OperationsChangeOnlyTheResponse := by
  intro i s
  obtain ⟨w, answers⟩ := exec_answers_one_word i
  exact ⟨_, answers s, rfl, rfl, Option.some_ne_none w, fun s' => ⟨_, answers s', rfl⟩⟩

/-! ## Reset -/

/-- Settles O1: after reset the port is empty, and a step needs a request. -/
theorem resetHasNoRequest : Obligations.ResetHasNoRequest :=
  ⟨reset_req, reset_rsp, step_none reset_req⟩

/-- Settles O10: after reset there is neither a request nor a response. -/
theorem resetPortIsConsistent : Obligations.ResetPortIsConsistent := by
  rw [Obligations.ResetPortIsConsistent, State.PortInv, reset_rsp, reset_req, Option.map_none]

/-! ## Lists of requests -/

/-- The state after a list of requests: the last of them is driven, if there is one. -/
def State.afterAll (s : State) (qs : List ReqWord) : State := qs.getLast?.elim s fun q => s.drive (some q)

@[simp] theorem afterAll_nil (s : State) : s.afterAll [] = s := rfl

/-- Of the requests before the last nothing is left. -/
theorem afterAll_cons (s : State) (q : ReqWord) (qs : List ReqWord) :
    s.afterAll (q :: qs) = (s.drive (some q)).afterAll qs := by
  rw [State.afterAll, State.afterAll, List.getLast?_cons]
  cases qs.getLast? with
  | none => rfl
  | some p => rfl

theorem afterAll_of_getLast? {s : State} {qs : List ReqWord} {q : ReqWord} (h : qs.getLast? = some q) :
    s.afterAll qs = s.drive (some q) := by
  rw [State.afterAll, h, Option.elim_some]

/-- Every session completes, with its last request driven. -/
theorem session_next (qs : List ReqWord) (s : State) : session qs s = .next (s.afterAll qs) := by
  induction qs generalizing s with
  | nil => rfl
  | cons q qs ih => rw [session_cons qs (present_next s q), ih, afterAll_cons]

/-- The host reads `B32` of each request, in order (R29). -/
theorem responses_eq_map (qs : List ReqWord) (s : State) : responses qs s = qs.map (b32 alphabet) := by
  induction qs generalizing s with
  | nil => rfl
  | cons q qs ih => rw [responses_cons qs (present_next s q), ih, drive_rsp, List.map_cons]; rfl

theorem portInv_drive (s : State) (o : Option ReqWord) : (s.drive o).PortInv := drive_rsp s o

theorem portInv_afterAll {s : State} (h : s.PortInv) (qs : List ReqWord) : (s.afterAll qs).PortInv := by
  rw [State.afterAll]
  cases qs.getLast? with
  | none => exact h
  | some q => exact portInv_drive s (some q)

/-- B32 holds nothing, so no list of requests changes its state. -/
@[simp] theorem afterAll_block (s : State) (qs : List ReqWord) : (s.afterAll qs).block = s.block := rfl

/-- Settles O9: a step drives its request again, which changes nothing of a consistent port; driving makes the port
consistent, and a session ends in driving its last request. -/
theorem everyStepKeepsThePortConsistent : Obligations.EveryStepKeepsThePortConsistent := by
  refine ⟨fun s t inv hst => ?_, fun s o => ⟨portInv_drive s o, drive_req s o⟩,
    fun qs s inv => ⟨_, session_next qs s, portInv_afterAll inv qs⟩⟩
  obtain ⟨q, -, driven, -⟩ := step_cases hst
  have same : t = s := by
    rw [step_driven driven, ← driven, drive_self inv] at hst
    exact (Host.Outcome.next.inj hst).symm
  rw [same]
  exact ⟨inv, rfl, rfl⟩

/-- Settles O5: a step by `blockStep`'s two components, a session by `blockRun`'s responses. -/
theorem stepIsTheStepOverUnit : Obligations.StepIsTheStepOverUnit := by
  refine ⟨fun s q => step_driven, fun qs s => ⟨_, session_next qs s, ?_⟩⟩
  rw [responses_eq_map, blockRun_eq, afterAll_block]

/-- Settles O6: the responses are `B32` of each request, and the last request stays driven. -/
theorem runAnswersEachRequestOnItsOwn : Obligations.RunAnswersEachRequestOnItsOwn := by
  refine fun qs s => ⟨responses_eq_map qs s, _, session_next qs s, fun h => ?_, fun q last => ?_⟩
  · rw [h, afterAll_nil]
  · rw [afterAll_of_getLast? last]
    exact ⟨drive_req s (some q), drive_rsp s (some q)⟩

/-- Any number of steps from a consistent port with a request leaves the state as it is. -/
theorem core_run_of_portInv {s : State} {q : ReqWord} (inv : s.PortInv) (driven : s.req = some q) (k : Nat) :
    Host.Core.run core k s = .next s := by
  induction k with
  | zero => exact core_run_zero s
  | succ k ih =>
    have stays : step s = .next s := by rw [step_driven driven, ← driven, drive_self inv]
    rw [core_run_succ k stays, ih]

/-- Settles O7: the first step makes the port consistent, and the others change nothing. -/
theorem heldRequestKeepsItsResponse : Obligations.HeldRequestKeepsItsResponse := by
  intro k s q positive driven
  obtain ⟨k, rfl⟩ := Nat.exists_eq_add_of_lt positive
  rw [Nat.zero_add, core_run_succ k (step_driven driven),
    core_run_of_portInv (portInv_drive s (some q)) (drive_req s (some q)) k]
  rfl

/-- Settles O8: a step and a transaction both leave the port as driving their request shows it. -/
theorem sameRequestGivesSameResponse : Obligations.SameRequestGivesSameResponse := by
  refine ⟨fun s s' q driven driven' => ⟨_, _, step_driven driven, step_driven driven', rfl, ?_⟩, fun s p q => ?_⟩
  · exact Option.some_ne_none (b32 alphabet q)
  · refine ⟨_, present_next s p, ?_⟩
    rw [present_next, present_next, drive_drive]

end Sys2Proof.Machine
end

section
/-! Words, operations and raw forms against each other (30_encoding.md): the decoder after the encoder and the encoder
after the decoder, the rows of the opcode table (R46), raw forms (R47), table words, and the status of what a word
decodes to (R123). -/

namespace Sys2Proof.Machine

/-! ## The fields of an encoded operation, and the two round trips -/

theorem wellFormed_enc {n : Count} {bs : List Byte} :
    (Instr.enc n bs).WellFormed ↔ bs.length = min n.toNat 5 := beq_iff_eq

theorem wellFormed_dec {m : Count} {cs : List Byte} :
    (Instr.dec m cs).WellFormed ↔ cs.length = min m.toNat 8 := beq_iff_eq

theorem wellFormed_flen (r : Count) : (Instr.flen r).WellFormed := rfl

theorem wellFormed_glen (r : Count) : (Instr.glen r).WellFormed := rfl

/-- Settles O12: the fields of a packed word come back, and the listed elements with them, at most 8. -/
theorem decodeOfEncodeIsIdentity : Obligations.DecodeOfEncodeIsIdentity := by
  intro i wf
  cases i with
  | enc n bs =>
    have count := wellFormed_enc.mp wf
    rw [encode, decodeWord_enc (reqOp_packReq ..), reqCnt_packReq, reqData_packReq,
      lanes_dataOf_listed count (by omega)]
  | dec m cs =>
    have count := wellFormed_dec.mp wf
    rw [encode, decodeWord_dec (reqOp_packReq ..), reqCnt_packReq, reqData_packReq,
      lanes_dataOf_listed count (by omega)]
  | flen r => rw [encode, decodeWord_flen (reqOp_packReq ..), reqCnt_packReq]
  | glen r => rw [encode, decodeWord_glen (reqOp_packReq ..), reqCnt_packReq]

/-- A word decodes to exactly the elements R47 lists. -/
theorem decodeWord_wellFormed (q : ReqWord) : (decodeWord q).WellFormed := by
  obtain op | op | op | op := reqOp_cases q
  · rw [decodeWord_enc op, wellFormed_enc, lanes_length]
  · rw [decodeWord_dec op, wellFormed_dec, lanes_length]
  · rw [decodeWord_flen op]
    exact wellFormed_flen _
  · rw [decodeWord_glen op]
    exact wellFormed_glen _

/-- Lane `i` of the word assembled from the first `k` lanes of a data field, for a lane among them. -/
theorem lane_dataOf_listed_lanes (d : Data) {k i : Nat} (hi : i < k) (hk : k ≤ 8) :
    lane (dataOf (listed (lanes k d))) i = lane d i := by
  rw [lane_dataOf _ (hi.trans_le hk), listed_lanes d hi]

/-- Decoding and encoding keeps the operation code. -/
theorem reqOp_encode_decodeWord (q : ReqWord) : reqOp (encode (decodeWord q)) = reqOp q := by
  obtain op | op | op | op := reqOp_cases q
  · rw [decodeWord_enc op, encode, reqOp_packReq, op]
  · rw [decodeWord_dec op, encode, reqOp_packReq, op]
  · rw [decodeWord_flen op, encode, reqOp_packReq, op]
  · rw [decodeWord_glen op, encode, reqOp_packReq, op]

/-- Decoding and encoding keeps the count. -/
theorem reqCnt_encode_decodeWord (q : ReqWord) : reqCnt (encode (decodeWord q)) = reqCnt q := by
  obtain op | op | op | op := reqOp_cases q
  · rw [decodeWord_enc op, encode, reqCnt_packReq]
  · rw [decodeWord_dec op, encode, reqCnt_packReq]
  · rw [decodeWord_flen op, encode, reqCnt_packReq]
  · rw [decodeWord_glen op, encode, reqCnt_packReq]

/-- Decoding and encoding changes ignored bits only: the consumed lanes are listed ones. -/
theorem sameButIgnored_encode_decodeWord (q : ReqWord) : SameButIgnored q (encode (decodeWord q)) := by
  refine ⟨(reqOp_encode_decodeWord q).symm, (reqCnt_encode_decodeWord q).symm, fun op legal i hi => ?_,
    fun op legal i hi => ?_⟩
  · rw [decodeWord_enc op, encode, reqData_packReq, lane_dataOf_listed_lanes _ (by omega) (by omega)]
  · rw [decodeWord_dec op, encode, reqData_packReq, lane_dataOf_listed_lanes _ (by omega) (by omega)]

/-- Settles O13: what differs after the round trip is ignored, and so is no part of the response (R42). -/
theorem encodeOfDecodeKeepsTheRequest : Obligations.EncodeOfDecodeKeepsTheRequest :=
  fun q => ⟨decodeWord_wellFormed q, reqOp_encode_decodeWord q, reqCnt_encode_decodeWord q,
    sameButIgnored_encode_decodeWord q,
    fun A => (ignoredRequestBitsChangeNothing A q _ (sameButIgnored_encode_decodeWord q)).symm⟩

/-! ## The opcode table (R46) -/

/-- A word of the table holds nothing but an operation code: bits 67 to 0 are 0. -/
def codeOnly (op : BitVec 2) : ReqWord := packReq op 0#4 0#64

/-- The mask of the table keeps the operation code of a word and clears the rest. -/
theorem and_mask (q : ReqWord) : q &&& 0x300000000000000000#70 = codeOnly (reqOp q) := by
  have op : reqOp (q &&& 0x300000000000000000#70) = reqOp q &&& 0b11#2 := BitVec.extractLsb'_and
  have cnt : reqCnt (q &&& 0x300000000000000000#70) = reqCnt q &&& 0#4 := BitVec.extractLsb'_and
  have data : reqData (q &&& 0x300000000000000000#70) = reqData q &&& 0#64 := BitVec.extractLsb'_and
  rw [← packReq_fields (q &&& _), op, cnt, data, BitVec.and_zero, BitVec.and_zero, codeOnly,
    show 0b11#2 = BitVec.allOnes 2 from rfl, BitVec.and_allOnes]

/-- Every row has that mask, and a pattern of an operation code only. -/
theorem opTable_fixed_bits :
    ∀ r ∈ opTable, r.mask = 0x300000000000000000#70 ∧ r.pattern = codeOnly (reqOp r.pattern) := by decide

/-- A row selects the words with its operation code. -/
theorem selects_iff {r : OpRow} (hr : r ∈ opTable) (q : ReqWord) :
    r.selects q = true ↔ reqOp q = reqOp r.pattern := by
  obtain ⟨mask, pattern⟩ := opTable_fixed_bits r hr
  rw [OpRow.selects, mask, and_mask, beq_iff_eq]
  constructor
  · intro h
    rw [← h, codeOnly, reqOp_packReq]
  · intro h
    rw [h, ← pattern]

/-- Different rows have different operation codes. -/
theorem opTable_pattern_injective :
    ∀ r ∈ opTable, ∀ r' ∈ opTable, reqOp r.pattern = reqOp r'.pattern → r = r' := by decide

theorem rowFits (i : Instr) : Laws.RowFits.Statement i := by
  cases i with
  | enc n bs => exact Laws.RowFits.enc n bs
  | dec m cs => exact Laws.RowFits.dec m cs
  | flen r => exact Laws.RowFits.flen r
  | glen r => exact Laws.RowFits.glen r

/-- Settles O14: the row of the decoded operation has the word's operation code, and no other row has. -/
theorem everyWordSelectsOneRow : Obligations.EveryWordSelectsOneRow := by
  intro q
  obtain ⟨code, -, mnemonic, row⟩ := rowFits (decodeWord q)
  rw [reqOp_encode_decodeWord] at code
  refine ⟨_, row, (selects_iff row q).mpr code, mnemonic, fun r hr selected => ?_⟩
  exact opTable_pattern_injective r hr _ row (((selects_iff hr q).mp selected).symm.trans code)

/-! ## Raw forms (R47) -/

@[simp] theorem rawBytes_length (w : BitVec 72) : (rawBytes w).length = 9 := by simp [rawBytes]

/-- The nine bytes of a raw form put together are the raw form. -/
theorem decodeBytes_rawBytes (w : BitVec 72) : decodeBytes (rawBytes w) = decodeRaw w := by
  have whole : w.extractLsb' 64 8 ++ w.extractLsb' 56 8 ++ w.extractLsb' 48 8 ++ w.extractLsb' 40 8 ++
      w.extractLsb' 32 8 ++ w.extractLsb' 24 8 ++ w.extractLsb' 16 8 ++ w.extractLsb' 8 8 ++ w.extractLsb' 0 8 = w := by
    apply BitVec.eq_of_getLsbD_eq
    intro j hj
    simp only [BitVec.getLsbD_append, BitVec.getLsbD_extractLsb']
    interval_cases j <;> simp
  exact congrArg decodeRaw whole

/-- The raw form of a request word has no bit above bit 69. -/
theorem decodeRaw_setWidth (q : ReqWord) : decodeRaw (q.setWidth 72) = .ok (decodeWord q) := by
  have top : (q.setWidth 72).extractLsb' 70 2 = 0b00#2 := by
    apply BitVec.eq_of_getLsbD_eq
    intro j hj
    simp [BitVec.getLsbD_extractLsb']
  have low : (q.setWidth 72).extractLsb' 0 70 = q := by
    apply BitVec.eq_of_getLsbD_eq
    intro j hj
    simp [hj, show j < 72 by omega]
  rw [decodeRaw, if_pos top, low]

/-- The bytes of a request word's raw form decode to what the word decodes to. -/
theorem decodeBytes_rawBytes_setWidth (q : ReqWord) :
    decodeBytes (rawBytes (q.setWidth 72)) = .ok (decodeWord q) := by
  rw [decodeBytes_rawBytes, decodeRaw_setWidth]

/-- The top two bits of a byte are 0 up to 0x3F. -/
theorem top_bits_eq_zero_iff (b : Byte) : b.extractLsb' 6 2 = 0b00#2 ↔ b ≤ 0x3F#8 := by decide +revert

/-- The first of nine bytes holds the top digit of the raw form, which decides whether it is a request word. -/
theorem decodeBytes_cons (b : Byte) {l : List Byte} (h : l.length = 8) :
    ∃ q, decodeBytes (b :: l) = if b ≤ 0x3F#8 then .ok (decodeWord q) else .error .topDigit := by
  match l, h with
  | [b1, b2, b3, b4, b5, b6, b7, b8], _ =>
    have top : (b ++ b1 ++ b2 ++ b3 ++ b4 ++ b5 ++ b6 ++ b7 ++ b8).extractLsb' 70 2 = b.extractLsb' 6 2 := by
      apply BitVec.eq_of_getLsbD_eq
      intro j hj
      simp only [BitVec.getLsbD_extractLsb', BitVec.getLsbD_append]
      interval_cases j <;> simp
    simp only [decodeBytes, decodeRaw, top, top_bits_eq_zero_iff]
    exact ⟨_, rfl⟩

theorem decodeBytes_of_length_ne {l : List Byte} (h : l.length ≠ 9) : decodeBytes l = .error .notNineBytes := by
  unfold decodeBytes
  split
  · exact absurd rfl h
  · rfl

/-- Settles O16: the raw form of an encoded operation by the round trips of bytes and words, any nine bytes by their
first. -/
theorem rawFormsDecodeOrAreRejected : Obligations.RawFormsDecodeOrAreRejected := by
  refine ⟨fun i wf => ⟨rawBytes_length _, ?_⟩, fun l => decodeBytes_of_length_ne, fun b l h above => ?_,
    fun b l h legal => ?_⟩
  · rw [encodeBytes, decodeBytes_rawBytes_setWidth, decodeOfEncodeIsIdentity i wf]
  · obtain ⟨q, decoded⟩ := decodeBytes_cons b h
    rw [decoded, if_neg (BitVec.not_le.mpr above)]
  · obtain ⟨q, decoded⟩ := decodeBytes_cons b h
    exact ⟨_, decoded.trans (if_pos legal)⟩

/-! ## Table words -/

theorem decodeTableWord_eq {nbits w : Nat} {q : ReqWord} (h : tableWord nbits w = some q) :
    decodeTableWord nbits w = some (decodeWord q) := by
  simp only [decodeTableWord, h, decodeBytes_rawBytes_setWidth, Except.toOption]

/-- Settles O17: the placed word is driven, and its raw form decodes to what the step runs. -/
theorem placedTableWordRunsNext : Obligations.PlacedTableWordRunsNext := by
  intro s nbits w fits
  have word : tableWord nbits w = some (BitVec.ofNat 70 (w % 2 ^ nbits)) := if_pos fits
  rw [State.withFetchWord, word]
  exact ⟨_, decodeTableWord_eq word, decodeWord_wellFormed _, drive_req .., drive_block .., portInv_drive ..,
    step_some (drive_req ..)⟩

/-- Settles O15: each printed word by evaluation of the decoder. -/
theorem printedWordsDecode : Obligations.PrintedWordsDecode := by
  unfold Obligations.PrintedWordsDecode
  decide

/-! ## The status of what a word decodes to (R123) -/

/-- The status of a completion is the one R123 gives, the count checked before the symbols. -/
theorem Completion.status {A : Alphabet} {i : Instr} {w : RspWord} (h : Completion A i w) :
    rspStatus w = statusOf A i := by
  cases h with
  | badCount illegal =>
    rw [statusOf, if_pos illegal]
    rfl
  | invalidSymbol legal miss =>
    rw [statusOf, if_neg (by simp [legal]), if_pos miss]
    rfl
  | ok legal found status => rw [status, statusOf, if_neg (by simp [legal]), if_neg (by simp [found]), okCode]

/-- `B32` of a word completes the operation the word decodes to. -/
theorem completion_decodeWord (A : Alphabet) (q : ReqWord) : Completion A (decodeWord q) (b32 A q) := by
  obtain op | op | op | op := reqOp_cases q
  · rw [decodeWord_enc op, b32_enc A op, ← encGroup_listed fun i => listed_lanes (reqData q)]
    exact completion_enc ..
  · rw [decodeWord_dec op, b32_dec A op, ← decGroup_listed fun k => listed_lanes (reqData q)]
    exact completion_dec ..
  · rw [decodeWord_flen op, b32_flen A op]
    exact completion_flen ..
  · rw [decodeWord_glen op, b32_glen A op]
    exact completion_glen ..

/-- Settles O23: the words `B32` and the machine complete an operation with have the status of R123. -/
theorem statusChecksCountThenSymbols : Obligations.StatusChecksCountThenSymbols := by
  refine ⟨fun A q => (completion_decodeWord A q).status, fun i s => ?_⟩
  obtain ⟨w, answered, h⟩ := exec_completes i s
  exact ⟨w, answered, h.status⟩

/-! ## Assembler lines (R47, R48) -/

/-- A line with a legal count and well-formed elements stands for one word, which decodes to the line. -/
theorem countedWord_decodes {n : Nat} {i : Instr} (count : n < 16) (wf : i.WellFormed) :
    ∃ w, countedWord n i = some [w] ∧ decodeWord w = i :=
  ⟨_, countedWord_eq_some.mpr ⟨count, wf, rfl⟩, decodeOfEncodeIsIdentity i wf⟩

/-- Below 16 the count field holds the count of the line. -/
theorem toNat_count {n : Nat} (h : n < 16) : (BitVec.ofNat 4 n).toNat = n := by
  simp [Nat.mod_eq_of_lt h]

theorem wellFormed_enc_ofNat {n : Nat} (h : n < 16) (bs : List Byte) :
    (Instr.enc (BitVec.ofNat 4 n) bs).WellFormed ↔ bs.length = min n 5 := by
  rw [wellFormed_enc, toNat_count h]

theorem wellFormed_dec_ofNat {m : Nat} (h : m < 16) (cs : List Byte) :
    (Instr.dec (BitVec.ofNat 4 m) cs).WellFormed ↔ cs.length = min m 8 := by
  rw [wellFormed_dec, toNat_count h]

/-- A line whose count is too large, or whose elements are not as many as R47 asks, is refused. -/
theorem countedWord_refuses {n k l : Nat} {i : Instr} (wf : n < 16 → (i.WellFormed ↔ l = k))
    (h : n ≥ 16 ∨ l ≠ k) : countedWord n i = none := by
  rw [countedWord_eq_none]
  obtain large | differs := h
  · exact .inl large
  · by_cases count : n < 16
    · exact .inr fun holds => differs ((wf count).mp holds)
    · exact .inl (Nat.le_of_not_lt count)

/-- The requests of an `ENCODE` decode to the `ENC` requests of its groups. -/
theorem map_decodeWord_encodeRequests (b : List Byte) :
    (encodeRequests b).map decodeWord = (groups 5 b).map encRequest := by
  rw [encodeRequests, List.map_map]
  refine List.map_congr_left fun x hx => decodeOfEncodeIsIdentity _ ?_
  have legal : x.length ≤ 5 := length_le_of_mem_groups (by decide) b x hx
  rw [encRequest, wellFormed_enc_ofNat (by omega), Nat.min_eq_left legal]

/-- The requests of a `DECODE` decode to the `DEC` requests of its groups. -/
theorem map_decodeWord_decodeRequests (s : List Byte) :
    (decodeRequests s).map decodeWord = (groups 8 s).map decRequest := by
  rw [decodeRequests, List.map_map]
  refine List.map_congr_left fun x hx => decodeOfEncodeIsIdentity _ ?_
  have legal : x.length ≤ 8 := length_le_of_mem_groups (by decide) s x hx
  rw [decRequest, wellFormed_dec_ofNat (by omega), Nat.min_eq_left legal]

/-- Where its text is ASCII, a `DEC` line with text is the one with the text's codes. -/
theorem assemble_decText {t : List Char} (m : Nat) (ascii : ∀ c ∈ t, c.toNat < 128) :
    assemble (.decText m t) = assemble (.decCodes m (t.map fun c => BitVec.ofNat 8 c.toNat)) := by
  rw [assemble, asciiCodes_eq_some.mpr ⟨ascii, rfl⟩, Option.bind_some, assemble]

theorem assemble_decText_not_ascii {t : List Char} (m : Nat) (h : ∃ c ∈ t, 128 ≤ c.toNat) :
    assemble (.decText m t) = none := by
  rw [assemble, asciiCodes_eq_none.mpr h, Option.bind_none]

theorem assemble_decode {t : List Char} (ascii : ∀ c ∈ t, c.toNat < 128) :
    assemble (.decode t) = some (decodeRequests (t.map fun c => BitVec.ofNat 8 c.toNat)) := by
  rw [assemble, asciiCodes_eq_some.mpr ⟨ascii, rfl⟩, Option.map_some]

theorem assemble_decode_not_ascii {t : List Char} (h : ∃ c ∈ t, 128 ≤ c.toNat) : assemble (.decode t) = none := by
  rw [assemble, asciiCodes_eq_none.mpr h, Option.map_none]

theorem assemble_enc_decodes {n : Nat} {bs : List Byte} (count : n < 16) (h : bs.length = min n 5) :
    ∃ w, assemble (.enc n bs) = some [w] ∧ decodeWord w = .enc (BitVec.ofNat 4 n) bs :=
  countedWord_decodes count ((wellFormed_enc_ofNat count bs).mpr h)

theorem assemble_decCodes_decodes {m : Nat} {cs : List Byte} (count : m < 16) (h : cs.length = min m 8) :
    ∃ w, assemble (.decCodes m cs) = some [w] ∧ decodeWord w = .dec (BitVec.ofNat 4 m) cs :=
  countedWord_decodes count ((wellFormed_dec_ofNat count cs).mpr h)

theorem assemble_decCodes_refuses {m : Nat} {cs : List Byte} (h : m ≥ 16 ∨ cs.length ≠ min m 8) :
    assemble (.decCodes m cs) = none :=
  countedWord_refuses (fun count => wellFormed_dec_ofNat count cs) h

/-- A `DEC` line with text is refused as one with codes is, and where its text is not ASCII. -/
theorem assemble_decText_refuses {m : Nat} {t : List Char}
    (h : m ≥ 16 ∨ t.length ≠ min m 8 ∨ ∃ c ∈ t, 128 ≤ c.toNat) : assemble (.decText m t) = none := by
  by_cases ascii : ∀ c ∈ t, c.toNat < 128
  · rw [assemble_decText m ascii]
    apply assemble_decCodes_refuses
    rw [List.length_map]
    obtain large | differs | ⟨c, hc, high⟩ := h
    · exact .inl large
    · exact .inr differs
    · exact absurd (ascii c hc) (Nat.not_lt.mpr high)
  · exact assemble_decText_not_ascii m (by simpa using ascii)

theorem assemble_req {raw : Nat} (h : raw < 2 ^ 70) : assemble (.req raw) = some [BitVec.ofNat 70 raw] := if_pos h

theorem assemble_enc_refuses {n : Nat} {bs : List Byte} (h : n ≥ 16 ∨ bs.length ≠ min n 5) :
    assemble (.enc n bs) = none :=
  countedWord_refuses (fun count => wellFormed_enc_ofNat count bs) h

/-- A line of `FLEN` or `GLEN` is refused where its count is too large. -/
theorem countedWord_large {n : Nat} {i : Instr} (h : n ≥ 16) : countedWord n i = none :=
  countedWord_eq_none.mpr (.inl h)

/-- Settles O58: lines with a count by their operation, lines with text by the text's codes, pseudo-operations by the
requests of their groups. -/
theorem assembledLinesDecodeBack : Obligations.AssembledLinesDecodeBack := by
  refine ⟨?enc, ?encRefused, ?decCodes, ?decCodesRefused, ?decText, ?decTextRefused, ?flen, ?flenRefused, ?glen,
    ?glenRefused, ?req, ?reqRefused, ?encode, ?decode, ?decodeRefused⟩
  case enc => exact fun n bs => assemble_enc_decodes
  case encRefused => exact fun n bs => assemble_enc_refuses
  case decCodes => exact fun m cs => assemble_decCodes_decodes
  case decCodesRefused => exact fun m cs => assemble_decCodes_refuses
  case decText =>
    intro m t count length ascii
    rw [assemble_decText m ascii]
    exact assemble_decCodes_decodes count (by rwa [List.length_map])
  case decTextRefused => exact fun m t => assemble_decText_refuses
  case flen => exact fun r count => countedWord_decodes count (wellFormed_flen _)
  case flenRefused => exact fun r => countedWord_large
  case glen => exact fun r count => countedWord_decodes count (wellFormed_glen _)
  case glenRefused => exact fun r => countedWord_large
  case req =>
    intro raw fits
    exact ⟨_, assemble_req fits, by rw [BitVec.toNat_ofNat, Nat.mod_eq_of_lt fits]⟩
  case reqRefused => exact fun raw large => if_neg (Nat.not_lt.mpr large)
  case encode => exact fun bs => ⟨_, rfl, map_decodeWord_encodeRequests bs⟩
  case decode => exact fun t ascii => ⟨_, assemble_decode ascii, map_decodeWord_decodeRequests _⟩
  case decodeRefused => exact fun t => assemble_decode_not_ascii

end Sys2Proof.Machine
end

section
/-! The symbols of an admissible alphabet: a counting argument fixes the set (R50), and with it the hits and misses of
the reverse lookup (R54 to R56). -/

namespace Sys2Proof.Machine

/-- A lowercase letter or a digit that is none of the four omitted characters (R50 (c), (d)). -/
abbrev symbolCode (c : Byte) : Prop := lowerOrDigit c ∧ c ≠ 0x30#8 ∧ c ≠ 0x32#8 ∧ c ≠ 0x6C#8 ∧ c ≠ 0x76#8

theorem symbolCode_of_admissible {A : Alphabet} (hA : A.Admissible) (v : Value) : symbolCode (A v) :=
  ⟨hA.charset v, hA.omits v⟩

theorem mem_map_allValues {A : Alphabet} {c : Byte} : c ∈ allValues.map A ↔ ∃ v, A v = c := by
  simp [mem_allValues]

theorem symbols_nodup {A : Alphabet} (hA : A.Admissible) : (allValues.map A).Nodup := by
  have values : allValues.Nodup := by decide
  exact values.map hA.distinct

/-- The default alphabet uses every code that may be a symbol, so that there are 32 of them. -/
theorem mem_zbase32_of_symbolCode (c : Byte) (h : symbolCode c) : c ∈ allValues.map zbase32 := by
  have table : allValues.map zbase32 = zbase32Table := by decide
  rw [table]
  decide +revert

/-- R50's counting argument: 32 different symbols among 32 codes are all of these. -/
theorem symbols_perm_zbase32 {A : Alphabet} (hA : A.Admissible) :
    (allValues.map A).Perm (allValues.map zbase32) := by
  have among : allValues.map A ⊆ allValues.map zbase32 := by
    intro c hc
    obtain ⟨v, rfl⟩ := mem_map_allValues.mp hc
    exact mem_zbase32_of_symbolCode _ (symbolCode_of_admissible hA v)
  refine (List.subperm_of_subset (symbols_nodup hA) among).perm_of_length_le ?_
  rw [List.length_map, List.length_map]

theorem exists_symbol_iff {A : Alphabet} (hA : A.Admissible) (c : Byte) : (∃ v, A v = c) ↔ symbolCode c := by
  constructor
  · rintro ⟨v, rfl⟩
    exact symbolCode_of_admissible hA v
  · intro h
    exact mem_map_allValues.mp ((symbols_perm_zbase32 hA).mem_iff.mpr (mem_zbase32_of_symbolCode c h))

/-- Settles O33: the symbols are those of the default alphabet in another order, which are all there may be. -/
theorem admissibleAlphabetsShareTheirSymbols : Obligations.AdmissibleAlphabetsShareTheirSymbols :=
  fun _ => exists_symbol_iff

/-! ## Hits and misses of the reverse lookup -/

theorem lookup_isSome_iff_mem {A : Alphabet} {c : Byte} : (lookup A c).isSome = true ↔ c ∈ allValues.map A := by
  rw [← Option.ne_none_iff_isSome, ne_eq, lookup_eq_none, mem_map_allValues]
  push Not
  rfl

/-- All character codes, in order. -/
def allCodes : List Byte := (List.range 256).map (BitVec.ofNat 8)

theorem mem_allCodes (c : Byte) : c ∈ allCodes :=
  List.mem_map.mpr ⟨c.toNat, List.mem_range.mpr c.isLt, BitVec.ofNat_toNat ..⟩

theorem allCodes_nodup : allCodes.Nodup := by
  refine List.nodup_range.map_on fun m hm n hn same => ?_
  simp only [List.mem_range] at hm hn
  have same := congrArg BitVec.toNat same
  simpa [Nat.mod_eq_of_lt hm, Nat.mod_eq_of_lt hn] using same

/-- The codes that are hits are the symbols in another order. -/
theorem hits_perm {A : Alphabet} (hA : A.Admissible) :
    (allCodes.filter fun c => (lookup A c).isSome).Perm (allValues.map A) := by
  rw [List.perm_ext_iff_of_nodup (allCodes_nodup.filter _) (symbols_nodup hA)]
  intro c
  rw [List.mem_filter, lookup_isSome_iff_mem, and_iff_right (mem_allCodes c)]

/-- Settles O32: there are as many hits as values, and the other codes are misses. -/
theorem lookupHas32HitsAnd224Misses : Obligations.LookupHas32HitsAnd224Misses := by
  intro A hA
  have hits : (allCodes.filter fun c => (lookup A c).isSome).length = 32 := by
    rw [(hits_perm hA).length_eq, List.length_map]
    decide
  have all := List.length_eq_length_filter_add (l := allCodes) fun c => (lookup A c).isSome
  have codes : allCodes.length = 256 := by simp [allCodes]
  have misses : (allCodes.filter fun c => (lookup A c).isNone).length = 224 := by
    simp only [codes, hits, Option.not_isSome] at all
    omega
  exact ⟨hits, misses⟩

/-- Uppercase letters, the omitted characters and what is no lowercase letter and no digit cannot be symbols (R55). -/
theorem not_symbolCode_of_outside {c : Byte}
    (h : (0x41#8 ≤ c ∧ c ≤ 0x5A#8) ∨ c = 0x30#8 ∨ c = 0x32#8 ∨ c = 0x6C#8 ∨ c = 0x76#8 ∨ c < 0x30#8 ∨
      (0x3A#8 ≤ c ∧ c ≤ 0x60#8) ∨ 0x7B#8 ≤ c) : ¬ symbolCode c := by
  decide +revert

/-- Settles O34: the codes outside by the set of symbols, the default alphabet's hits by its 32 entries. -/
theorem codesOutsideEveryAlphabet : Obligations.CodesOutsideEveryAlphabet := by
  refine ⟨fun A hA c outside => ?_, fun c => ?_⟩
  · exact lookup_eq_none.mpr fun v symbol =>
      not_symbolCode_of_outside outside (symbol ▸ symbolCode_of_admissible hA v)
  · rw [lookup_isSome_iff_mem]
    rfl

end Sys2Proof.Machine
end

section
/-! The remainder tables as closed forms (R60 to R67), and the two regroupings bit by bit, by slices, by shifts and
masks, and as inverses (R22, R72, R86). -/

namespace Sys2Proof.Machine

/-! ## The tables -/

theorem f_eq_ceil {r : Nat} (h : r < 5) : f r = some ((8 * r + 4) / 5) := by
  interval_cases r <;> rfl

theorem F_eq_ceil {n : Nat} (h : n ≤ 5) : F n = some ((8 * n + 4) / 5) := by
  interval_cases n <;> rfl

/-- A symbol count is `⌈8n/5⌉` of a legal byte count. -/
theorem F_eq_some {n k : Nat} : F n = some k ↔ n ≤ 5 ∧ k = (8 * n + 4) / 5 := by
  by_cases h : n ≤ 5
  · rw [F_eq_ceil h, Option.some.injEq, and_iff_right h, eq_comm]
  · simp [F_eq_none (Nat.lt_of_not_le h), h]

/-- A byte count is `⌈5m/8⌉` of a legal symbol count. -/
theorem G_eq_some {m k : Nat} : G m = some k ↔ m ≤ 8 ∧ k = (5 * m + 7) / 8 := by
  by_cases h : m ≤ 8
  · rw [G_eq_ceil h, Option.some.injEq, and_iff_right h, eq_comm]
  · simp [G_eq_none (Nat.lt_of_not_le h), h]

/-- Settles O35: the entries by evaluation, the closed forms on the legal counts and `none` off them. -/
theorem remainderTablesAreCeilings : Obligations.RemainderTablesAreCeilings := by
  refine ⟨⟨by decide, fun r => f_eq_none.mpr⟩, ⟨by decide, fun r => g_eq_none.mpr⟩, fun n => ?_, fun m => ?_⟩
  · split
    · next legal => exact F_eq_ceil legal
    · next illegal => exact F_eq_none (Nat.lt_of_not_le illegal)
  · split
    · next legal => exact G_eq_ceil legal
    · next illegal => exact G_eq_none (Nat.lt_of_not_le illegal)

theorem lt_of_f_eq_some {r k : Nat} (h : f r = some k) : r < 5 :=
  Nat.lt_of_not_le fun outside => by simp [f_eq_none.mpr outside] at h

theorem lt_of_g_eq_some {r k : Nat} (h : g r = some k) : r < 8 :=
  Nat.lt_of_not_le fun outside => by simp [g_eq_none.mpr outside] at h

/-- Encoding `n` bytes and decoding the symbols gives the `n` bytes, and one more where they are no full group. -/
theorem G_of_F {n k : Nat} (h : F n = some k) : G k = if n % 5 = 0 then some n else some (n + 1) := by
  obtain ⟨legal, rfl⟩ := F_eq_some.mp h
  interval_cases n <;> rfl

/-- Settles O36: each entry of the tables in turn; outside them there is nothing to show. -/
theorem tableSlackAndComposition : Obligations.TableSlackAndComposition := by
  refine ⟨fun r k entry => ?_, fun r k entry => ?_, fun n k => G_of_F, fun m k size => ?_, fun n => ?_⟩
  · have inside := lt_of_f_eq_some entry
    obtain rfl : (8 * r + 4) / 5 = k := Option.some.inj ((f_eq_ceil inside).symm.trans entry)
    interval_cases r <;> decide
  · have inside := lt_of_g_eq_some entry
    obtain rfl : (5 * r + 7) / 8 = k := Option.some.inj ((g_eq_ceil inside).symm.trans entry)
    interval_cases r <;> decide
  · obtain ⟨legal, rfl⟩ := G_eq_some.mp size
    interval_cases m <;> rfl
  · simp only [ne_eq, F_eq_some]
    omega

/-! ## The regroupings, bit by bit (R22) -/

/-- Settles O37: bit `39-p` of the window is in byte `p/8` and in value `p/5`. -/
theorem windowBitsKeepTheirPlace : Obligations.WindowBitsKeepTheirPlace := by
  refine ⟨fun b p hp => ?_, fun v p hp => ?_⟩
  · rw [getLsbD_regroup58 b (by omega) (by omega), show 35 - 5 * (p / 5) + (4 - p % 5) = 39 - p by omega,
      show 4 - (39 - p) / 8 = p / 8 by omega, show (39 - p) % 8 = 7 - p % 8 by omega]
  · rw [getLsbD_regroup85 v (by omega) (by omega), show 32 - 8 * (p / 8) + (7 - p % 8) = 39 - p by omega,
      show 7 - (39 - p) / 5 = p / 5 by omega, show (39 - p) % 5 = 4 - p % 5 by omega]

/-! ## Inverse regroupings (R72) -/

theorem regroup58_congr {b b' : Nat → Byte} (h : ∀ i < 5, b i = b' i) (k : Nat) : regroup58 b k = regroup58 b' k := by
  rw [regroup58, regroup58, windowOfBytes_congr h]

theorem regroup85_congr {v v' : Nat → Value} (h : ∀ k < 8, v k = v' k) (i : Nat) : regroup85 v i = regroup85 v' i := by
  rw [regroup85, regroup85, windowOfValues_congr h]

/-- The values of the bytes of eight values are these: the window is the same. -/
theorem regroup58_regroup85 (v : Nat → Value) {k : Nat} (hk : k < 8) : regroup58 (regroup85 v) k = v k := by
  calc regroup58 (regroup85 v) k
      = windowValue (windowOfBytes (windowByte (windowOfValues v))) k := rfl
    _ = windowValue (windowOfValues v) k := by rw [windowOfBytes_windowByte]
    _ = v k := windowValue_windowOfValues v hk

/-- The bytes of the values of five bytes are these: the window is the same. -/
theorem regroup85_regroup58 (b : Nat → Byte) {i : Nat} (hi : i < 5) : regroup85 (regroup58 b) i = b i := by
  calc regroup85 (regroup58 b) i
      = windowByte (windowOfValues (windowValue (windowOfBytes b))) i := rfl
    _ = windowByte (windowOfBytes b) i := by rw [windowOfValues_windowValue]
    _ = b i := windowByte_windowOfBytes b hi

/-! ## Slices as shifts and masks (R72, R86)

A slice `[hi : lo]` of an element is its shift right by `lo`, masked to its width; joining is shift left and or. -/

/-- A slice is a shift right and a mask. -/
theorem toNat_slice {w : Nat} (x : BitVec w) (lo len : Nat) :
    (x.extractLsb' lo len).toNat = (x.toNat >>> lo) &&& (2 ^ len - 1) := by
  rw [BitVec.extractLsb'_toNat, Nat.and_two_pow_sub_one_eq_mod]

/-- The topmost bits are a shift right alone. -/
theorem toNat_top {w : Nat} (x : BitVec w) {lo len : Nat} (h : w = lo + len) :
    (x.extractLsb' lo len).toNat = x.toNat >>> lo := by
  rw [BitVec.extractLsb'_toNat, Nat.shiftRight_eq_div_pow, Nat.mod_eq_of_lt]
  exact Nat.div_lt_of_lt_mul (by rw [← pow_add, ← h]; exact x.isLt)

/-- The lowest bits are a mask alone. -/
theorem toNat_low {w : Nat} (x : BitVec w) (len : Nat) :
    (x.extractLsb' 0 len).toNat = x.toNat &&& (2 ^ len - 1) := toNat_slice x 0 len

/-- Three pieces joined: the first is shifted past both others. -/
theorem toNat_append_append {a b c : Nat} (x : BitVec a) (y : BitVec b) (z : BitVec c) :
    (x ++ y ++ z).toNat = (x.toNat <<< (b + c)) ||| (y.toNat <<< c) ||| z.toNat := by
  rw [BitVec.toNat_append, BitVec.toNat_append, Nat.shiftLeft_or_distrib, ← Nat.shiftLeft_add]

/-- The five bytes by shifts and masks (R72). -/
theorem toNat_slices85 (v : Nat → Value) :
    (slices85 v 0).toNat = ((v 0).toNat <<< 3) ||| ((v 1).toNat >>> 2) ∧
    (slices85 v 1).toNat = (((v 1).toNat &&& 0x03) <<< 6) ||| ((v 2).toNat <<< 1) ||| ((v 3).toNat >>> 4) ∧
    (slices85 v 2).toNat = (((v 3).toNat &&& 0x0F) <<< 4) ||| ((v 4).toNat >>> 1) ∧
    (slices85 v 3).toNat = (((v 4).toNat &&& 0x01) <<< 7) ||| ((v 5).toNat <<< 2) ||| ((v 6).toNat >>> 3) ∧
    (slices85 v 4).toNat = (((v 6).toNat &&& 0x07) <<< 5) ||| (v 7).toNat := by
  refine ⟨?_, ?_, ?_, ?_, ?_⟩
  · rw [slices85, BitVec.toNat_append, toNat_top _ rfl]
  · rw [slices85, toNat_append_append, toNat_low, toNat_top _ rfl]
    rfl
  · rw [slices85, BitVec.toNat_append, toNat_low, toNat_top _ rfl]
    rfl
  · rw [slices85, toNat_append_append, toNat_low, toNat_top _ rfl]
    rfl
  · change ((v 6).extractLsb' 0 3 ++ v 7).toNat = _
    rw [BitVec.toNat_append, toNat_low]
    rfl

/-- The eight values by shifts and masks (R86). -/
theorem toNat_slices58 (b : Nat → Byte) :
    (slices58 b 0).toNat = (b 0).toNat >>> 3 ∧
    (slices58 b 1).toNat = (((b 0).toNat &&& 0x07) <<< 2) ||| ((b 1).toNat >>> 6) ∧
    (slices58 b 2).toNat = ((b 1).toNat >>> 1) &&& 0x1F ∧
    (slices58 b 3).toNat = (((b 1).toNat &&& 0x01) <<< 4) ||| ((b 2).toNat >>> 4) ∧
    (slices58 b 4).toNat = (((b 2).toNat &&& 0x0F) <<< 1) ||| ((b 3).toNat >>> 7) ∧
    (slices58 b 5).toNat = ((b 3).toNat >>> 2) &&& 0x1F ∧
    (slices58 b 6).toNat = (((b 3).toNat &&& 0x03) <<< 3) ||| ((b 4).toNat >>> 5) ∧
    (slices58 b 7).toNat = (b 4).toNat &&& 0x1F := by
  refine ⟨?_, ?_, ?_, ?_, ?_, ?_, ?_, ?_⟩
  · rw [slices58, toNat_top _ rfl]
  · rw [slices58, BitVec.toNat_append, toNat_low, toNat_top _ rfl]
    rfl
  · rw [slices58, toNat_slice]
    rfl
  · rw [slices58, BitVec.toNat_append, toNat_low, toNat_top _ rfl]
    rfl
  · rw [slices58, BitVec.toNat_append, toNat_low, toNat_top _ rfl]
    rfl
  · rw [slices58, toNat_slice]
    rfl
  · rw [slices58, BitVec.toNat_append, toNat_low, toNat_top _ rfl]
    rfl
  · change ((b 4).extractLsb' 0 5).toNat = _
    rw [toNat_low]
    rfl

/-- Settles O38: byte by byte the slices, and the one window that both views have. -/
theorem regroupToBytesBySlices : Obligations.RegroupToBytesBySlices := by
  refine ⟨fun v i => regroup85_eq_slices85 v, fun v => ?_, fun v k => regroup58_regroup85 v,
    fun b i => regroup85_regroup58 b⟩
  have slices {i : Nat} (hi : i < 5) := regroup85_eq_slices85 v hi
  rw [slices (i := 0) (by decide), slices (i := 1) (by decide), slices (i := 2) (by decide),
    slices (i := 3) (by decide), slices (i := 4) (by decide)]
  exact toNat_slices85 v

/-- Settles O39: value by value the slices. -/
theorem regroupToValuesBySlices : Obligations.RegroupToValuesBySlices := by
  refine ⟨fun b k => regroup58_eq_slices58 b, fun b => ?_⟩
  have slices {k : Nat} (hk : k < 8) := regroup58_eq_slices58 b hk
  rw [slices (k := 0) (by decide), slices (k := 1) (by decide), slices (k := 2) (by decide),
    slices (k := 3) (by decide), slices (k := 4) (by decide), slices (k := 5) (by decide),
    slices (k := 6) (by decide), slices (k := 7) (by decide)]
  exact toNat_slices58 b

end Sys2Proof.Machine
end

section
/-! One group against the other: what absent elements leave of it (R73, R76, R87, R90), and `ENC` and `DEC` undoing each
other, for every legal count (R79, R92). -/

namespace Sys2Proof.Machine

/-! ## Absent elements -/

theorem encByte_absent {n i : Nat} (b : Nat → Byte) (h : n ≤ i) : encByte n b i = 0x00#8 := if_neg (Nat.not_lt.mpr h)

theorem decValue_absent (A : Alphabet) {m k : Nat} (c : Nat → Byte) (h : m ≤ k) : decValue A m c k = 0#5 := by
  rw [decValue, decSlot, if_neg (Nat.not_lt.mpr h), Option.getD_some]

/-- Where the values from `m` on are absent, so are the bits from bit `5*m` of the window on. -/
theorem getLsbD_regroup85_absent {v : Nat → Value} {m i j : Nat} (absent : ∀ k, m ≤ k → v k = 0#5) (hi : i < 5)
    (hj : j < 8) (h : 5 * m ≤ 8 * i + 7 - j) : (regroup85 v i).getLsbD j = false := by
  rw [getLsbD_regroup85 v hi hj, absent _ (by omega), BitVec.getLsbD_zero]

/-- Where the bytes from `n` on are absent, so are the bits from bit `8*n` of the window on. -/
theorem getLsbD_regroup58_absent {b : Nat → Byte} {n k j : Nat} (absent : ∀ i, n ≤ i → b i = 0x00#8) (hk : k < 8)
    (hj : j < 5) (h : 8 * n ≤ 5 * k + 4 - j) : (regroup58 b k).getLsbD j = false := by
  rw [getLsbD_regroup58 b hk hj, absent _ (by omega), BitVec.getLsbD_zero]

theorem toNat_mod_two_pow_eq_zero {w t : Nat} {x : BitVec w} (h : ∀ j < t, x.getLsbD j = false) :
    x.toNat % 2 ^ t = 0 := by
  apply Nat.eq_of_testBit_eq
  intro j
  rw [Nat.testBit_mod_two_pow, Nat.zero_testBit, BitVec.testBit_toNat]
  by_cases hj : j < t
  · rw [h j hj, Bool.and_false]
  · rw [decide_eq_false hj, Bool.false_and]

/-- A byte `DEC` does not emit is zero (R73). -/
theorem decByte_dropped (A : Alphabet) {m k i : Nat} (c : Nat → Byte) (size : G m = some k) (hk : k ≤ i) (hi : i < 5) :
    decByte A m c i = 0x00#8 := by
  obtain ⟨-, rfl⟩ := G_eq_some.mp size
  apply BitVec.eq_of_getLsbD_eq
  intro j hj
  rw [decByte, getLsbD_regroup85_absent (fun k => decValue_absent A c) hi hj (by omega), BitVec.getLsbD_zero]

/-- A value `ENC` suppresses is zero (R87). -/
theorem encValue_suppressed {n k j : Nat} (b : Nat → Byte) (size : F n = some k) (hk : k ≤ j) (hj : j < 8) :
    encValue n b j = 0#5 := by
  obtain ⟨-, rfl⟩ := F_eq_some.mp size
  apply BitVec.eq_of_getLsbD_eq
  intro i hi
  rw [encValue, getLsbD_regroup58_absent (fun i => encByte_absent b) hj hi (by omega), BitVec.getLsbD_zero]

/-- Settles O40: bit by bit, what stands behind the consumed symbols in the window is zero. -/
theorem droppedDecodeBytesAreZero : Obligations.DroppedDecodeBytesAreZero := by
  refine fun A m k c size => ⟨fun i => decByte_dropped A c size, fun positive => ?_⟩
  obtain ⟨legal, rfl⟩ := G_eq_some.mp size
  exact toNat_mod_two_pow_eq_zero fun j hj =>
    getLsbD_regroup85_absent (fun k => decValue_absent A c) (by omega) (by omega) (by omega)

/-- Settles O41: bit by bit, what stands behind the consumed bytes in the window is zero. -/
theorem suppressedEncodeValuesAreZero : Obligations.SuppressedEncodeValuesAreZero := by
  refine fun n k b size => ⟨fun j => encValue_suppressed b size, fun positive => ?_⟩
  obtain ⟨legal, rfl⟩ := F_eq_some.mp size
  exact toNat_mod_two_pow_eq_zero fun j hj =>
    getLsbD_regroup58_absent (fun i => encByte_absent b) (by omega) (by omega) (by omega)

/-! ## `ENC` loses no bit (R90) -/

/-- The emitted values determine all eight, the others being zero. -/
theorem encValue_eq_of_emitted {n k : Nat} {b b' : Nat → Byte} (size : F n = some k)
    (h : ∀ j < k, encValue n b j = encValue n b' j) : ∀ j < 8, encValue n b j = encValue n b' j := by
  intro j hj
  by_cases hk : j < k
  · exact h j hk
  · rw [encValue_suppressed b size (by omega) hj, encValue_suppressed b' size (by omega) hj]

/-- The eight values determine the bytes. -/
theorem encByte_eq_regroup85 (n : Nat) (b : Nat → Byte) {i : Nat} (hi : i < 5) :
    encByte n b i = regroup85 (encValue n b) i := (regroup85_regroup58 (encByte n b) hi).symm

/-- Settles O42: the symbols give the emitted values back, these all values, and these the bytes. -/
theorem encodeGroupLosesNoBit : Obligations.EncodeGroupLosesNoBit := by
  intro A hA n b b' legal same i hi
  have size := F_eq_ceil legal
  have emitted : ∀ j < (8 * n + 4) / 5, encValue n b j = encValue n b' j := by
    intro j hj
    rw [encGroup_ok b size, encGroup_ok b' size] at same
    have symbol := congrArg (fun r => lane r.data j) same
    simp only [lane_okElements _ _ (show j < 8 by omega), if_pos hj] at symbol
    exact hA.distinct _ _ symbol
  have bytes : encByte n b i = encByte n b' i := by
    rw [encByte_eq_regroup85 n b (by omega), encByte_eq_regroup85 n b' (by omega),
      regroup85_congr (encValue_eq_of_emitted size emitted)]
  simpa only [encByte, if_pos hi] using bytes

/-! ## The elements of a response as a list -/

/-- Element `i` of the bytes of an `OK` response. -/
theorem listed_rspBytes_okElements {k i : Nat} (e : Nat → Byte) (hk : k ≤ 8) (hi : i < k) :
    listed (rspBytes (packRsp (okElements k e))) i = e i := by
  rw [rspBytes_okElements e hk]
  simp [listed, hi]

theorem length_rspBytes_okElements {k : Nat} (e : Nat → Byte) (hk : k ≤ 8) :
    (rspBytes (packRsp (okElements k e))).length = k := by
  rw [rspBytes_okElements e hk, List.length_map, List.length_range]

/-- A list with a filler for what it does not list: the list, then copies of the filler. -/
theorem map_range_filled (es : List Byte) (z : Byte) (t : Nat) :
    (List.range (es.length + t)).map (fun i => if i < es.length then listed es i else z) =
      es ++ List.replicate t z := by
  apply List.ext_getElem
  · simp
  · intro i h1 h2
    rw [List.getElem_map, List.getElem_range, List.getElem_append]
    split
    · next hi => exact listed_eq_getElem hi
    · next hi => rw [List.getElem_replicate]

/-- The bytes of an `OK` response to a list with a filler. -/
theorem rspBytes_okElements_filled {k t : Nat} {es : List Byte} {e : Nat → Byte} (z : Byte) (hk : k ≤ 8)
    (length : es.length + t = k) (filled : ∀ i, e i = if i < es.length then listed es i else z) :
    rspBytes (packRsp (okElements k e)) = es ++ List.replicate t z := by
  rw [rspBytes_okElements e hk, funext filled, ← length, map_range_filled]

/-! ## `DEC` after `ENC`, and `ENC` after `DEC` -/

/-- The number of bytes that come back from the symbols of `n` bytes: one more where they are no full group. -/
def bytesBack (n : Nat) : Nat := if n % 5 = 0 then n else n + 1

theorem G_of_F_eq_bytesBack {n k : Nat} (size : F n = some k) : G k = some (bytesBack n) := by
  rw [G_of_F size, bytesBack]
  split <;> rfl

/-- The symbols of `ENC` are looked up to its values. -/
theorem decSlot_symbols {A : Alphabet} (hA : A.Admissible) {n k j : Nat} {b c : Nat → Byte} (size : F n = some k)
    (symbols : ∀ j < k, c j = A (encValue n b j)) (hj : j < 8) : decSlot A k c j = some (encValue n b j) := by
  by_cases hk : j < k
  · rw [decSlot, if_pos hk, symbols j hk, lookup_symbol hA]
  · rw [decSlot, if_neg hk, encValue_suppressed b size (by omega) hj]

/-- `DEC` of the symbols of `ENC` gives the bytes of `ENC` back, absent ones as 0x00. -/
theorem decGroup_symbols {A : Alphabet} (hA : A.Admissible) {n k : Nat} {b c : Nat → Byte} (size : F n = some k)
    (symbols : ∀ j < k, c j = A (encValue n b j)) : decGroup A k c = okElements (bytesBack n) (encByte n b) := by
  have slot {j : Nat} (hj : j < 8) := decSlot_symbols hA size symbols hj
  have found : decMisses A k c = false := by
    rw [decMisses, List.any_eq_false]
    intro j hj
    rw [slot (List.mem_range.mp hj), Option.isNone_some]
    decide
  have back := G_of_F_eq_bytesBack size
  rw [decGroup_ok back found]
  apply okElements_congr
  intro i hi
  rw [encByte_eq_regroup85 n b (hi.trans_le (G_le back)), decByte]
  exact regroup85_congr (fun j hj => by rw [decValue, slot hj, Option.getD_some]) i

/-- `DEC` of the response to a group of bytes: the bytes, absent ones as 0x00. -/
theorem decGroup_encGroup {A : Alphabet} (hA : A.Admissible) {bs : List Byte} {k : Nat} (size : F bs.length = some k) :
    decGroup A k (listed (rspBytes (packRsp (encGroup A bs.length (listed bs))))) =
      okElements (bytesBack bs.length) (encByte bs.length (listed bs)) := by
  rw [encGroup_ok _ size]
  exact decGroup_symbols hA size fun j => listed_rspBytes_okElements _ (F_le size)

/-- The bytes that come back from the symbols of `b`: one zero byte more where they fill no whole groups (C1). -/
def padded (b : List Byte) : List Byte := if b.length % 5 = 0 then b else b ++ [0x00#8]

theorem padded_of_whole {b : List Byte} (h : b.length % 5 = 0) : padded b = b := if_pos h

theorem padded_eq_append (b : List Byte) :
    padded b = b ++ List.replicate (bytesBack b.length - b.length) 0x00#8 := by
  rw [padded, bytesBack]
  split <;> simp

theorem le_bytesBack (n : Nat) : n ≤ bytesBack n := by
  rw [bytesBack]
  split <;> omega

theorem rspBytes_encByte {bs : List Byte} (h : bs.length ≤ 5) :
    rspBytes (packRsp (okElements (bytesBack bs.length) (encByte bs.length (listed bs)))) = padded bs := by
  have small : bytesBack bs.length ≤ 5 := G_le (G_of_F_eq_bytesBack (F_eq_ceil h))
  rw [padded_eq_append]
  exact rspBytes_okElements_filled 0x00#8 (small.trans (by decide)) (Nat.add_sub_cancel' (le_bytesBack _)) fun i => rfl

/-- `ENC` of the bytes of `DEC` gives the values of `DEC` back. -/
theorem encValue_of_bytes {A : Alphabet} {m k : Nat} {b c : Nat → Byte} (size : G m = some k)
    (bytes : ∀ i < k, b i = decByte A m c i) {j : Nat} (hj : j < 8) : encValue k b j = decValue A m c j := by
  have same : ∀ i < 5, encByte k b i = decByte A m c i := by
    intro i hi
    by_cases hk : i < k
    · rw [encByte, if_pos hk, bytes i hk]
    · rw [encByte_absent b (by omega), decByte_dropped A c size (by omega) hi]
  rw [encValue, regroup58_congr same]
  exact regroup58_regroup85 (decValue A m c) hj

/-- The symbol of a looked-up value is the code, and that of an absent one `A(0)`. -/
theorem symbol_decValue {A : Alphabet} {m : Nat} {c : Nat → Byte} (legal : m ≤ 8) (found : decMisses A m c = false)
    (j : Nat) : A (decValue A m c j) = if j < m then c j else A 0#5 := by
  split
  · next hj =>
    cases hit : lookup A (c j) with
    | none => exact absurd ((decMisses_iff legal).mpr ⟨j, hj, hit⟩) (by simp [found])
    | some v => rw [decValue, decSlot, if_pos hj, hit, Option.getD_some, lookup_sound hit]
  · next hj => rw [decValue_absent A c (by omega)]

/-- The number of symbols that come back from the bytes of `m` symbols (R67). -/
def symbolsBack (m : Nat) : Nat := (8 * ((5 * m + 7) / 8) + 4) / 5

theorem F_of_G_eq_symbolsBack {m k : Nat} (size : G m = some k) : F k = some (symbolsBack m) := by
  obtain ⟨legal, rfl⟩ := G_eq_some.mp size
  rw [F_eq_ceil (by omega), symbolsBack]

/-- `ENC` of the bytes of `DEC` gives the codes of `DEC` back, and `A(0)` for absent ones. -/
theorem encGroup_bytes {A : Alphabet} {m k : Nat} {b c : Nat → Byte} (size : G m = some k)
    (found : decMisses A m c = false) (bytes : ∀ i < k, b i = decByte A m c i) :
    encGroup A k b = okElements (symbolsBack m) fun j => if j < m then c j else A 0#5 := by
  have legal := (G_eq_some.mp size).1
  have back := F_of_G_eq_symbolsBack size
  rw [encGroup_ok b back]
  apply okElements_congr
  intro j hj
  rw [encValue_of_bytes size bytes (hj.trans_le (F_le back)), symbol_decValue legal found]

/-- `ENC` of the response to a group of symbols: the symbols, and `A(0)` for absent ones. -/
theorem encGroup_decGroup {A : Alphabet} {cs : List Byte} {k : Nat} (size : G cs.length = some k)
    (found : decMisses A cs.length (listed cs) = false) :
    encGroup A k (listed (rspBytes (packRsp (decGroup A cs.length (listed cs))))) =
      okElements (symbolsBack cs.length) fun j => if j < cs.length then listed cs j else A 0#5 := by
  rw [decGroup_ok size found]
  exact encGroup_bytes size found fun i => listed_rspBytes_okElements _ ((G_le size).trans (by decide))

theorem le_symbolsBack (m : Nat) : m ≤ symbolsBack m := by
  rw [symbolsBack]
  omega

theorem rspBytes_symbolsBack (A : Alphabet) {cs : List Byte} (h : cs.length ≤ 8) :
    rspBytes (packRsp (okElements (symbolsBack cs.length) fun j => if j < cs.length then listed cs j else A 0#5)) =
      cs ++ List.replicate (symbolsBack cs.length - cs.length) (A 0#5) :=
  rspBytes_okElements_filled (A 0#5) (F_le (F_of_G_eq_symbolsBack (G_eq_ceil h)))
    (Nat.add_sub_cancel' (le_symbolsBack _)) fun _ => rfl

/-! ## Full groups (R79, R92) -/

/-- Settles O43: `ENC 5` and `DEC 8` are the two round trips of a group with no element absent. -/
theorem fullGroupsAreInverse : Obligations.FullGroupsAreInverse := by
  refine ⟨fun bs s s' five => ⟨_, _, exec_enc 5#4 bs s, exec_dec 8#4 _ s', ?_⟩,
    fun cs s s' eight symbols => ⟨_, _, exec_dec 8#4 cs s, exec_enc 5#4 _ s', ?_⟩⟩
  · have count : (5#4).toNat = bs.length := five.symm
    have size : F bs.length = some (8#4).toNat := by rw [five]; rfl
    rw [count, decGroup_encGroup alphabet_admissible size, rspBytes_encByte five.le, padded_of_whole (by rw [five])]
    exact ⟨rspStatus_packRsp _, rfl⟩
  · have count : (8#4).toNat = cs.length := eight.symm
    have size : G cs.length = some (5#4).toNat := by rw [eight]; rfl
    have found : decMisses alphabet cs.length (listed cs) = false := by
      rw [Bool.eq_false_iff, ne_eq, decMisses_listed eight.le]
      rintro ⟨c, hc, miss⟩
      obtain ⟨v, symbol⟩ := symbols c hc
      exact miss v symbol
    have none_added : symbolsBack cs.length - cs.length = 0 := by rw [eight]; rfl
    rw [count, encGroup_decGroup size found, rspBytes_symbolsBack _ eight.le, none_added, List.replicate_zero,
      List.append_nil]
    exact ⟨rspStatus_packRsp _, rfl⟩

end Sys2Proof.Machine
end

section
/-! Whole sequences: how a sequence is cut into groups (R25), and the laws of `ENCODE` and `DECODE` that follow from
their groups (R102, R107 to R111). -/

namespace Sys2Proof.Machine

/-! ## Cutting a sequence into groups (R25, R150) -/

/-- No group is empty. -/
theorem length_pos_of_mem_groups {k : Nat} (hk : 0 < k) (l : List Byte) : ∀ x ∈ groups k l, 0 < x.length := by
  induction l using groups_induction hk with
  | short l h =>
    rw [groups_short h]
    split
    · next h0 => simp
    · next h0 => simpa using List.length_pos_iff.mpr h0
  | full l h ih =>
    rw [groups_full hk h, List.forall_mem_cons, List.length_take, Nat.min_eq_left h]
    exact ⟨hk, ih⟩

/-- There are `⌈n/k⌉` groups. -/
theorem length_groups {k : Nat} (hk : 0 < k) (l : List Byte) : (groups k l).length = (l.length + k - 1) / k := by
  induction l using groups_induction hk with
  | short l h =>
    rw [groups_short h]
    split
    · next h0 => rw [h0, List.length_nil, List.length_nil, Nat.zero_add, Nat.div_eq_of_lt (Nat.sub_one_lt hk.ne')]
    · next h0 =>
      have := List.length_pos_iff.mpr h0
      rw [show l.length + k - 1 = l.length - 1 + k by omega, Nat.add_div_right _ hk, Nat.div_eq_of_lt (by omega)]
      rfl
  | full l h ih =>
    rw [groups_full hk h, List.length_cons, ih, List.length_drop,
      show l.length + k - 1 = l.length - k + k - 1 + k by omega, Nat.add_div_right _ hk]

/-- Every group but the last is full. -/
theorem length_of_mem_dropLast_groups {k : Nat} (hk : 0 < k) (l : List Byte) :
    ∀ x ∈ (groups k l).dropLast, x.length = k := by
  induction l using groups_induction hk with
  | short l h =>
    rw [groups_short h]
    split <;> simp
  | full l h ih =>
    rw [groups_full hk h]
    by_cases last : groups k (l.drop k) = []
    · simp [last]
    · rw [List.dropLast_cons_of_ne_nil last, List.forall_mem_cons, List.length_take, Nat.min_eq_left h]
      exact ⟨rfl, ih⟩

/-- Settles O44: each clause by induction over the groups. -/
theorem groupsCutTheSequence : Obligations.GroupsCutTheSequence :=
  fun _ l hk => ⟨flatten_groups hk l, length_groups hk l,
    fun x hx => ⟨length_pos_of_mem_groups hk l x hx, length_le_of_mem_groups hk l x hx⟩,
    length_of_mem_dropLast_groups hk l⟩

/-- At a group boundary the groups of two sequences put together are those of the one, then those of the other. -/
theorem groups_append {k : Nat} (hk : 0 < k) {a : List Byte} (h : a.length % k = 0) (b : List Byte) :
    groups k (a ++ b) = groups k a ++ groups k b := by
  induction a using groups_induction hk with
  | short a short =>
    have empty : a = [] := List.length_eq_zero_iff.mp (Nat.mod_eq_of_lt short ▸ h)
    rw [empty, groups_nil, List.nil_append, List.nil_append]
  | full a full ih =>
    have rest : (a.drop k).length % k = 0 := by rwa [List.length_drop, Nat.mod_eq_sub_mod full] at *
    rw [groups_full hk full, groups_full hk (by rw [List.length_append]; omega), List.take_append_of_le_length full,
      List.drop_append_of_le_length full, ih rest, List.cons_append]

/-- What holds of one group and of the sequences after it holds of all sequences: induction over the groups, a full
group being split off as a sequence of its own. -/
theorem sequence_induction {k : Nat} (hk : 0 < k) {P : List Byte → Prop} (short : ∀ l, l.length < k → P l)
    (full : ∀ x l, x.length = k → P l → P (x ++ l)) (l : List Byte) : P l := by
  induction l using groups_induction hk with
  | short l h => exact short l h
  | full l h ih =>
    rw [← List.take_append_drop k l]
    exact full _ _ (List.length_take_of_le h) ih

/-! ## Concatenation (R111) -/

theorem encodeSeq_append (A : Alphabet) {a : List Byte} (h : a.length % 5 = 0) (b : List Byte) :
    encodeSeq A (a ++ b) = encodeSeq A a ++ encodeSeq A b := by
  rw [encodeSeq, encodeRequests, groups_append (by decide) h, List.map_append, List.flatMap_append]
  rfl

theorem collect_append_eq_success {rs rs' : List RspWord} {z : List Byte} :
    collect (rs ++ rs') = .success z ↔
      ∃ x y, collect rs = .success x ∧ collect rs' = .success y ∧ z = x ++ y := by
  simp only [collect_eq_success, List.forall_mem_append, List.flatMap_append]
  constructor
  · rintro ⟨⟨ok, ok'⟩, rfl⟩
    exact ⟨_, _, ⟨ok, rfl⟩, ⟨ok', rfl⟩, rfl⟩
  · rintro ⟨x, y, ⟨ok, rfl⟩, ⟨ok', rfl⟩, rfl⟩
    exact ⟨⟨ok, ok'⟩, rfl⟩

/-- `DECODE` of two sequences at a group boundary: both succeed, and the bytes are put together. -/
theorem decodeSeq_append_eq_success (A : Alphabet) {s : List Byte} (h : s.length % 8 = 0) {t z : List Byte} :
    decodeSeq A (s ++ t) = .success z ↔
      ∃ x y, decodeSeq A s = .success x ∧ decodeSeq A t = .success y ∧ z = x ++ y := by
  rw [decodeSeq, decodeRequests, groups_append (by decide) h, List.map_append, List.map_append]
  exact collect_append_eq_success

theorem decodeSeq_append (A : Alphabet) {s t x y : List Byte} (h : s.length % 8 = 0)
    (first : decodeSeq A s = .success x) (rest : decodeSeq A t = .success y) :
    decodeSeq A (s ++ t) = .success (x ++ y) :=
  (decodeSeq_append_eq_success A h).mpr ⟨x, y, first, rest, rfl⟩

/-- Settles O54: the groups of the two parts are the groups of the whole. -/
theorem concatenationAtAGroupBoundary : Obligations.ConcatenationAtAGroupBoundary := by
  refine ⟨fun A a b h => encodeSeq_append A h b, fun A s t x y h => decodeSeq_append A h, fun A s t h => ?_⟩
  simp only [decodeSeq_append_eq_success A h]
  constructor
  · rintro ⟨z, x, y, first, rest, -⟩
    exact ⟨⟨x, first⟩, y, rest⟩
  · rintro ⟨⟨x, first⟩, y, rest⟩
    exact ⟨x ++ y, x, y, first, rest, rfl⟩

/-! ## One group -/

/-- `ENCODE` of at most one group: the elements of its response. -/
theorem encodeSeq_group (A : Alphabet) {bs : List Byte} (h : bs.length ≤ 5) :
    encodeSeq A bs = rspBytes (packRsp (encGroup A bs.length (listed bs))) := by
  by_cases h0 : bs = []
  · rw [h0, encodeSeq_nil, List.length_nil, encGroup_empty]
    rfl
  · rw [encodeSeq, encodeRequests, groups_single h0 h, List.map_singleton, List.flatMap_singleton, b32_encRequest A h]

/-- `DECODE` of at most one group: what the host makes of its response. -/
theorem decodeSeq_group (A : Alphabet) {cs : List Byte} (h : cs.length ≤ 8) :
    decodeSeq A cs = collect [packRsp (decGroup A cs.length (listed cs))] := by
  by_cases h0 : cs = []
  · rw [h0, decodeSeq_nil, List.length_nil, decGroup_empty]
    rfl
  · rw [decodeSeq, decodeRequests, groups_single h0 h, List.map_singleton, List.map_singleton, b32_decRequest A h]

theorem collect_okElements (k : Nat) (e : Nat → Byte) :
    collect [packRsp (okElements k e)] = .success (rspBytes (packRsp (okElements k e))) := by
  simp [collect_eq_success]

/-- `ENCODE` of at most one group lists the symbols of its values. -/
theorem encodeSeq_group_eq_map (A : Alphabet) {bs : List Byte} {k : Nat} (size : F bs.length = some k) :
    encodeSeq A bs = (List.range k).map fun j => A (encValue bs.length (listed bs) j) := by
  rw [encodeSeq_group A (F_eq_some.mp size).1, encGroup_ok _ size, rspBytes_okElements _ (F_le size)]

/-- `DECODE` of at most one group succeeds where no character misses, with the bytes of its response. -/
theorem decodeSeq_group_eq_success {A : Alphabet} {cs x : List Byte} (h : cs.length ≤ 8) :
    decodeSeq A cs = .success x ↔ decMisses A cs.length (listed cs) = false ∧
      rspBytes (packRsp (decGroup A cs.length (listed cs))) = x := by
  rw [decodeSeq_group A h]
  cases hc : decMisses A cs.length (listed cs) with
  | true =>
    rw [decGroup_miss h hc]
    simp [collect_eq_success, errorCode, okCode]
  | false =>
    rw [decGroup_ok (G_eq_ceil h) hc, collect_okElements]
    simp

/-! ## Length and symbols of an encoding (R102, R107) -/

/-- `EncLen(n)` is `⌈8n/5⌉`, whatever the remainder. -/
theorem encLen_eq_ceil (n : Nat) : encLen n = (8 * n + 4) / 5 := by
  rw [encLen, f_eq_ceil (Nat.mod_lt n (by decide)), Option.getD_some]
  omega

theorem length_encodeSeq_group (A : Alphabet) {bs : List Byte} (h : bs.length ≤ 5) :
    (encodeSeq A bs).length = encLen bs.length := by
  rw [encodeSeq_group_eq_map A (F_eq_ceil h), List.length_map, List.length_range, encLen_eq_ceil]

theorem length_encodeSeq (A : Alphabet) (b : List Byte) : (encodeSeq A b).length = encLen b.length := by
  induction b using sequence_induction (k := 5) (by decide) with
  | short b h => exact length_encodeSeq_group A h.le
  | full x b hx ih =>
    rw [encodeSeq_append A (by rw [hx]), List.length_append, List.length_append, ih, length_encodeSeq_group A hx.le,
      hx, encLen_eq_ceil, encLen_eq_ceil, encLen_eq_ceil]
    omega

theorem encLen_strictMono {n n' : Nat} (h : n < n') : encLen n < encLen n' := by
  rw [encLen_eq_ceil, encLen_eq_ceil]
  omega

/-- The lengths `ENCODE` takes are those whose remainder mod 8 is in the table `f`; `⌊5l/8⌋` bytes have length `l`. -/
theorem exists_encLen_eq (l : Nat) :
    (∃ n, encLen n = l) ↔ l % 8 = 0 ∨ l % 8 = 2 ∨ l % 8 = 4 ∨ l % 8 = 5 ∨ l % 8 = 7 := by
  constructor
  · rintro ⟨n, rfl⟩
    rw [encLen_eq_ceil]
    omega
  · intro h
    refine ⟨5 * l / 8, ?_⟩
    rw [encLen_eq_ceil]
    omega

/-- Settles O46: the law by induction over the groups, the rest by the closed form. -/
theorem encodeLengthLaw : Obligations.EncodeLengthLaw := by
  refine ⟨length_encodeSeq, fun n => ?_, by decide, fun n n' => encLen_strictMono, exists_encLen_eq⟩
  have entry := f_eq_ceil (Nat.mod_lt n (by decide : 0 < 5))
  exact ⟨_, entry, by rw [encLen, entry, Option.getD_some]⟩

theorem symbol_of_mem_encodeSeq_group (A : Alphabet) {bs : List Byte} (h : bs.length ≤ 5) :
    ∀ c ∈ encodeSeq A bs, ∃ v, A v = c := by
  rw [encodeSeq_group_eq_map A (F_eq_ceil h), List.forall_mem_map]
  exact fun j _ => ⟨_, rfl⟩

theorem symbol_of_mem_encodeSeq (A : Alphabet) (b : List Byte) : ∀ c ∈ encodeSeq A b, ∃ v, A v = c := by
  induction b using sequence_induction (k := 5) (by decide) with
  | short b h => exact symbol_of_mem_encodeSeq_group A h.le
  | full x b hx ih =>
    rw [encodeSeq_append A (by rw [hx]), List.forall_mem_append]
    exact ⟨symbol_of_mem_encodeSeq_group A hx.le, ih⟩

/-- Settles O50: every group is answered with symbols, and symbols decode. -/
theorem encodeEmitsOnlySymbols : Obligations.EncodeEmitsOnlySymbols :=
  ⟨symbol_of_mem_encodeSeq, fun A b => decodeSeq_succeeds (symbol_of_mem_encodeSeq A b)⟩

/-! ## From bytes and back (R108) -/

theorem padded_append {x : List Byte} (h : x.length = 5) (b : List Byte) : padded (x ++ b) = x ++ padded b := by
  rw [padded, padded, List.length_append, h, Nat.add_mod_left]
  split
  · rfl
  · rw [List.append_assoc]

theorem decodeSeq_encodeSeq_group {A : Alphabet} (hA : A.Admissible) {bs : List Byte} (h : bs.length ≤ 5) :
    decodeSeq A (encodeSeq A bs) = .success (padded bs) := by
  have size : F bs.length = some (encodeSeq A bs).length := by
    rw [F_eq_ceil h, length_encodeSeq_group A h, encLen_eq_ceil]
  have back := decGroup_encGroup hA size
  rw [← encodeSeq_group A h] at back
  rw [decodeSeq_group A (F_le size), back, collect_okElements, rspBytes_encByte h]

theorem decodeSeq_encodeSeq {A : Alphabet} (hA : A.Admissible) (b : List Byte) :
    decodeSeq A (encodeSeq A b) = .success (padded b) := by
  induction b using sequence_induction (k := 5) (by decide) with
  | short b h => exact decodeSeq_encodeSeq_group hA h.le
  | full x b hx ih =>
    have first : decodeSeq A (encodeSeq A x) = .success x := by
      rw [decodeSeq_encodeSeq_group hA hx.le, padded_of_whole (by rw [hx])]
    have whole : (encodeSeq A x).length % 8 = 0 := by
      rw [length_encodeSeq, hx]
      rfl
    rw [encodeSeq_append A (by rw [hx]), padded_append hx, decodeSeq_append A whole first ih]

/-- Settles O51: group by group, each full group giving its own bytes back. -/
theorem bytesComeBackFromTheirEncoding : Obligations.BytesComeBackFromTheirEncoding :=
  fun _ => decodeSeq_encodeSeq

/-- Settles O53: the text determines the number of bytes, and the bytes come back from it; two and three symbols of
value 0 decode to the same two bytes. -/
theorem encodeIsInjective : Obligations.EncodeIsInjective := by
  refine ⟨fun A hA b b' same => ?_, fun A hA => ?_⟩
  · have lengths : b.length = b'.length := by
      have encoded := congrArg List.length same
      rw [length_encodeSeq, length_encodeSeq] at encoded
      exact (show StrictMono encLen from fun _ _ => encLen_strictMono).injective encoded
    have back : padded b = padded b' := by
      have decoded := congrArg (decodeSeq A) same
      rwa [decodeSeq_encodeSeq hA, decodeSeq_encodeSeq hA, DecodeResult.success.injEq] at decoded
    rw [padded_eq_append, padded_eq_append] at back
    exact List.append_inj_left back lengths
  · rw [← hA.zero]
    exact ⟨decodeSeq_symbols hA (vs := [0#5, 0#5]) (n := 2) (by decide) rfl,
      decodeSeq_symbols hA (vs := [0#5, 0#5, 0#5]) (n := 2) (by decide) rfl⟩

/-! ## From symbols and back (R109) -/

/-- Encoding the bytes of one group of symbols gives the symbols back, then copies of `A(0)`. -/
theorem encodeSeq_decodeSeq_group {A : Alphabet} {cs x : List Byte} (h : cs.length ≤ 8)
    (decoded : decodeSeq A cs = .success x) :
    encodeSeq A x = cs ++ List.replicate (symbolsBack cs.length - cs.length) (A 0#5) := by
  obtain ⟨found, rfl⟩ := (decodeSeq_group_eq_success h).mp decoded
  have size : G cs.length = some (rspBytes (packRsp (decGroup A cs.length (listed cs)))).length := by
    rw [G_eq_ceil h, decGroup_ok (G_eq_ceil h) found, length_rspBytes_okElements _ (by omega)]
  rw [encodeSeq_group A (G_le size), encGroup_decGroup size found, rspBytes_symbolsBack A h]

/-- How many symbols are added, by the number of symbols in the remainder block. -/
theorem symbolsBack_sub {m : Nat} (h : m < 8) : [0, 1, 2, 1, 1, 2, 1, 1][m]? = some (symbolsBack m - m) := by
  interval_cases m <;> rfl

theorem encodeSeq_decodeSeq {A : Alphabet} (s x : List Byte) (decoded : decodeSeq A s = .success x) :
    encodeSeq A x = s ++ List.replicate (symbolsBack (s.length % 8) - s.length % 8) (A 0#5) := by
  induction s using sequence_induction (k := 8) (by decide) generalizing x with
  | short s h => rw [Nat.mod_eq_of_lt h, encodeSeq_decodeSeq_group h.le decoded]
  | full c s hc ih =>
    obtain ⟨y, z, first, rest, rfl⟩ := (decodeSeq_append_eq_success A (by rw [hc])).mp decoded
    have five : y.length = 5 := by
      rw [length_of_decodeSeq first, hc]
      rfl
    have symbols : encodeSeq A y = c := by
      rw [encodeSeq_decodeSeq_group hc.le first, hc, show symbolsBack 8 - 8 = 0 from rfl, List.replicate_zero,
        List.append_nil]
    rw [encodeSeq_append A (by rw [five]), symbols, ih z rest, List.length_append, hc, Nat.add_mod_left,
      List.append_assoc]

/-- Settles O52: the added symbols are those of the remainder block alone. -/
theorem symbolsComeBackFromTheirDecoding : Obligations.SymbolsComeBackFromTheirDecoding :=
  fun _ _ s x decoded => ⟨_, symbolsBack_sub (Nat.mod_lt _ (by decide)), encodeSeq_decodeSeq s x decoded⟩

/-! ## The host at the machine, and an example of grouping -/

/-- Settles O57: the host reads `B32` of each request of the expansion. -/
theorem machineRunsThePseudoOperations : Obligations.MachineRunsThePseudoOperations := by
  refine ⟨fun b s => ?_, fun x s => ?_⟩
  · rw [responses_eq_map, List.flatMap_map]
    rfl
  · rw [responses_eq_map]
    rfl

/-- Settles O55: the values of FF FF and of FF, whose symbols differ in the second place. -/
theorem bytesFFFFCutInTwoGroupsDiffer : Obligations.BytesFFFFCutInTwoGroupsDiffer := by
  intro A hA
  have whole : encodeSeq A [0xFF#8, 0xFF#8] = [A 31#5, A 31#5, A 31#5, A 16#5] := by
    have values : (List.range 4).map (encValue 2 (listed [0xFF#8, 0xFF#8])) = [31#5, 31#5, 31#5, 16#5] := by decide
    exact (encodeSeq_single A (by decide) rfl).trans (congrArg (List.map A) values)
  have single : encodeSeq A [0xFF#8] = [A 31#5, A 28#5] := by
    have values : (List.range 2).map (encValue 1 (listed [0xFF#8])) = [31#5, 28#5] := by decide
    exact (encodeSeq_single A (by decide) rfl).trans (congrArg (List.map A) values)
  rw [whole, single]
  refine ⟨rfl, rfl, fun same => ?_⟩
  have second : A 31#5 = A 28#5 := Option.some.inj (congrArg (fun l => l[1]?) same)
  exact absurd (hA.distinct _ _ second) (by decide)

end Sys2Proof.Machine
end
